-- ==== Sys2Proof/Word.lean ====
section
/-! DEFINITION. The words of the GF2Matrix block: the row word and the widths of the command port. -/

namespace Sys2Proof

/-- A row word, a column word, the DATA operand or RESULT: 64 bits, bit 0 the least significant (R7, R9). -/
abbrev Word := BitVec 64

/-- The 32-bit command word of the one format CMD32 (R80). -/
abbrev CmdWord := BitVec 32

/-- One element of the sequence buffer: 8 bits unsigned (R27). -/
abbrev Byte := BitVec 8

/-- The number of one of the NSLOT = 4 matrix slots `m0` .. `m3` (R20). -/
abbrev SlotNum := Fin 4

end Sys2Proof
end

