-- ==== Sys2Proof/Syntax.lean ====
section
/-! DEFINITION. The commands of the block: one constructor per row of spec/opcode_table.json (R85), each with the
operands its row names. Index and count operands are mathematical integers (R11, R82); which integers have an encoding
is WellFormed's matter. DATA is an argument of the commands that read it (R83). A field a command does not read is no
argument of it (R88). -/

namespace Sys2Proof

/-- A command of the block. `md` is the destination or modified slot, `ma` and `mb` the source slots (R81). -/
inductive Instr where
  /-- 0x0, R110: a zero matrix of the given shape in slot `md`. -/
  | new (md : SlotNum) (rows cols : Int)
  /-- 0x1, R113: the 64 by 64 zero matrix in slot `md`. -/
  | newdef (md : SlotNum)
  /-- 0x2, R133: the entry `(i, j)` of slot `ma`. -/
  | get (ma : SlotNum) (i j : Int)
  /-- 0x3, R134: entry `(i, j)` of slot `md` becomes DATA. -/
  | set (md : SlotNum) (i j : Int) (value : Word)
  /-- 0x4, R155: row `i` of slot `ma`. -/
  | getrow (ma : SlotNum) (i : Int)
  /-- 0x5, R158: row `i` of slot `md` from the sequence buffer; `isSeq` is the bit `S` (R84), `data` the length when
  it is set and the scalar when it is not. -/
  | setrow (md : SlotNum) (i : Int) (isSeq : Bool) (data : Word)
  /-- 0x6, R161: column `j` of slot `ma`. -/
  | getcol (ma : SlotNum) (j : Int)
  /-- 0x7, R164: column `j` of slot `md` from the sequence buffer; `isSeq` and `data` as for `setrow`. -/
  | setcol (md : SlotNum) (j : Int) (isSeq : Bool) (data : Word)
  /-- 0x8, R182: the sum of two matrices. -/
  | add (md ma mb : SlotNum)
  /-- 0x9, R184: the difference of two matrices. -/
  | sub (md ma mb : SlotNum)
  /-- 0xA, R186: the product of two matrices. -/
  | mul (md ma mb : SlotNum)
  /-- 0xB, R200: the rank of the matrix in slot `ma`. -/
  | rank (ma : SlotNum)
  /-- 0xC, R116: the shape of the matrix in slot `ma`. -/
  | size (ma : SlotNum)
  /-- 0xD, R168: the eight bytes of DATA into octet `k` of the sequence buffer. -/
  | seqld (k : Int) (data : Word)
  /-- 0xE, R86: a reserved opcode, answered with IllegalCommand. -/
  | reservedE
  /-- 0xF, R86: a reserved opcode, answered with IllegalCommand. -/
  | reservedF
  deriving DecidableEq, Repr

end Sys2Proof
end

