-- ==== Sys2Proof/WellFormed.lean ====
section
/-! DEFINITION. Which commands have an encoding: the operand ranges of the assembler (R90, U11), and which of those the
assembler may emit (U8). -/

namespace Sys2Proof

/-- An index or count operand has an encoding exactly when it lies in -128..127 (R82, R90). -/
abbrev fitsS8 (v : Int) : Bool := decide (-128 ≤ v ∧ v ≤ 127)

/-- Every index and count operand of the command has an encoding (R90). Slot numbers and DATA always have one. -/
def Instr.wellFormed : Instr → Bool
  | .new _ r c => fitsS8 r && fitsS8 c
  | .newdef _ => true
  | .get _ i j => fitsS8 i && fitsS8 j
  | .set _ i j _ => fitsS8 i && fitsS8 j
  | .getrow _ i => fitsS8 i
  | .setrow _ i _ _ => fitsS8 i
  | .getcol _ j => fitsS8 j
  | .setcol _ j _ _ => fitsS8 j
  | .add _ _ _ => true
  | .sub _ _ _ => true
  | .mul _ _ _ => true
  | .rank _ => true
  | .size _ => true
  | .seqld k _ => fitsS8 k
  | .reservedE => true
  | .reservedF => true

/-- The command is one of the two reserved opcodes (R86). -/
def Instr.isReserved : Instr → Bool
  | .new _ _ _ => false
  | .newdef _ => false
  | .get _ _ _ => false
  | .set _ _ _ _ => false
  | .getrow _ _ => false
  | .setrow _ _ _ _ => false
  | .getcol _ _ => false
  | .setcol _ _ _ _ => false
  | .add _ _ _ => false
  | .sub _ _ _ => false
  | .mul _ _ _ => false
  | .rank _ => false
  | .size _ => false
  | .seqld _ _ => false
  | .reservedE => true
  | .reservedF => true

/-- The assembler may emit the command: its operands have an encoding and its opcode is not reserved (R90, U8). -/
def Instr.assemblable (i : Instr) : Bool := i.wellFormed && !i.isReserved

end Sys2Proof
end

