-- ==== Sys2Proof/Decode.lean ====
section
/-! DEFINITION. The decoder of 30_encoding.md R100 (its first five lines and its case split) and, after it, the encoder
of R91. Both read R81's field table and R85's opcode map. -/

namespace Sys2Proof

/-- Why the decoder rejects a command word. -/
inductive DecodeError where
  /-- A bit of 31:28 or bit 11 is set (R87). Safe: the channel answers such a word with IllegalCommand, as R87 says. -/
  | reservedBits
  deriving DecidableEq, Repr

/-- `OP`, bits 3:0 (R81). -/
def opField (c : CmdWord) : BitVec 4 := c.extractLsb' 0 4
/-- `MD`, bits 5:4 (R81). -/
def mdField (c : CmdWord) : SlotNum := (c.extractLsb' 4 2).toFin
/-- `MA`, bits 7:6 (R81). -/
def maField (c : CmdWord) : SlotNum := (c.extractLsb' 6 2).toFin
/-- `MB`, bits 9:8 (R81). -/
def mbField (c : CmdWord) : SlotNum := (c.extractLsb' 8 2).toFin
/-- `S`, bit 10 (R81, R84). -/
def sField (c : CmdWord) : Bool := c.getLsbD 10
/-- `S8(f)`: the integer in -128..127 whose 8-bit two's complement pattern is `f` (R10). -/
def s8 (f : BitVec 8) : Int := f.toInt
/-- `I`, bits 19:12, read as `S8` (R81, R82). -/
def iField (c : CmdWord) : Int := s8 (c.extractLsb' 12 8)
/-- `J`, bits 27:20, read as `S8` (R81, R82). -/
def jField (c : CmdWord) : Int := s8 (c.extractLsb' 20 8)

/-- A reserved bit of the word is set: 31:28 or 11 (R87). -/
abbrev reservedBitSet (c : CmdWord) : Prop := c.extractLsb' 28 4 ≠ 0#4 ∨ c.getLsbD 11 = true

/-- The command that a word and its DATA operand name (R85, R100): reserved bits first, then the opcode. -/
def decode (c : CmdWord) (d : Word) : Except DecodeError Instr :=
  if reservedBitSet c then .error .reservedBits
  else match (opField c).toNat with
    | 0x0 => .ok (.new (mdField c) (iField c) (jField c))
    | 0x1 => .ok (.newdef (mdField c))
    | 0x2 => .ok (.get (maField c) (iField c) (jField c))
    | 0x3 => .ok (.set (mdField c) (iField c) (jField c) d)
    | 0x4 => .ok (.getrow (maField c) (iField c))
    | 0x5 => .ok (.setrow (mdField c) (iField c) (sField c) d)
    | 0x6 => .ok (.getcol (maField c) (jField c))
    | 0x7 => .ok (.setcol (mdField c) (jField c) (sField c) d)
    | 0x8 => .ok (.add (mdField c) (maField c) (mbField c))
    | 0x9 => .ok (.sub (mdField c) (maField c) (mbField c))
    | 0xA => .ok (.mul (mdField c) (maField c) (mbField c))
    | 0xB => .ok (.rank (maField c))
    | 0xC => .ok (.size (maField c))
    | 0xD => .ok (.seqld (iField c) d)
    | 0xE => .ok .reservedE
    | _ => .ok .reservedF  -- a 4-bit field: only 0xF is left

/-- The instruction that the decoder reads from a row of the opcode table: the command word in bits 31:0, the DATA
operand in the bits above it, every bit at or above `nbits` read as 0 (log 11). -/
def decodeTableWord (nbits w : Nat) : Option Instr :=
  let v := w % 2 ^ nbits
  match decode (BitVec.ofNat 32 v) (BitVec.ofNat 64 (v / 2 ^ 32)) with
  | .ok i => some i
  | .error _ => none

/-- The command word with the given fields and its reserved bits 0 (R81). -/
def commandWord (op : BitVec 4) (md ma mb : SlotNum) (s : Bool) (i j : Int) : CmdWord :=
  0#4 ++ BitVec.ofInt 8 j ++ BitVec.ofInt 8 i ++ 0#1 ++ BitVec.ofBool s ++
    BitVec.ofNat 2 mb.val ++ BitVec.ofNat 2 ma.val ++ BitVec.ofNat 2 md.val ++ op

/-- The command word and DATA operand the assembler writes, 0 in every ignored field (R91). The reserved opcodes have
words too (R86), though the assembler refuses to emit them. -/
def encode : Instr → CmdWord × Word
  | .new md r c => (commandWord 0x0 md 0 0 false r c, 0)
  | .newdef md => (commandWord 0x1 md 0 0 false 0 0, 0)
  | .get ma i j => (commandWord 0x2 0 ma 0 false i j, 0)
  | .set md i j v => (commandWord 0x3 md 0 0 false i j, v)
  | .getrow ma i => (commandWord 0x4 0 ma 0 false i 0, 0)
  | .setrow md i sq d => (commandWord 0x5 md 0 0 sq i 0, d)
  | .getcol ma j => (commandWord 0x6 0 ma 0 false 0 j, 0)
  | .setcol md j sq d => (commandWord 0x7 md 0 0 sq 0 j, d)
  | .add md ma mb => (commandWord 0x8 md ma mb false 0 0, 0)
  | .sub md ma mb => (commandWord 0x9 md ma mb false 0 0, 0)
  | .mul md ma mb => (commandWord 0xA md ma mb false 0 0, 0)
  | .rank ma => (commandWord 0xB 0 ma 0 false 0 0, 0)
  | .size ma => (commandWord 0xC 0 ma 0 false 0 0, 0)
  | .seqld k d => (commandWord 0xD 0 0 0 false k 0, d)
  | .reservedE => (commandWord 0xE 0 0 0 false 0 0, 0)
  | .reservedF => (commandWord 0xF 0 0 0 false 0 0, 0)

end Sys2Proof
end

