-- ==== Sys2Proof/Machine/Bits.lean ====
section
/-! DEFINITION. The word primitives of 00_scope.md R10 and the datapath units that work on words alone: bit extract
(R130), bit replace (R131), row XOR (R180), dot product (R181), and the OR over a range that gather units are built of
(R150, R152, R186). -/

namespace Sys2Proof.Machine

/-- `LOWMASK(c)`: bits `c-1..0` are 1, the others 0 (R10). -/
def lowMask (c : Nat) : Word := BitVec.ofNat 64 (2 ^ c - 1)

/-- `BIT(k)`: only bit `k` is set (R10). -/
def bitMask (k : Nat) : Word := lowMask (k + 1) ^^^ lowMask k

/-- `zext_64` of one bit (R10). -/
def zextBit (b : Bool) : Word := BitVec.setWidth 64 (BitVec.ofBool b)

/-- The bit-extract unit `BEXT(w, j) = (w >> j) & 1` (R130). -/
def bext (w : Word) (j : Nat) : Bool := (w >>> j) &&& 1#64 == 1#64

/-- The bit-replace unit `BREP(w, j, v) = (w & ~BIT(j)) | (zext_64(v) << j)` (R131). -/
def brep (w : Word) (j : Nat) (v : Bool) : Word := (w &&& ~~~ bitMask j) ||| (zextBit v <<< j)

/-- The row XOR unit: bit `k` of the result is `a[k] XOR b[k]` (R180). -/
def rxor (a b : Word) : Word := a ^^^ b

/-- The number of 1 bits among bits `n-1..0` of `w`. -/
def popcountBelow (w : Word) : Nat → Nat
  | 0 => 0
  | n + 1 => popcountBelow w n + (w.getLsbD n).toNat

/-- `popcount(w)` (R10). -/
def popcount (w : Word) : Nat := popcountBelow w 64

/-- `parity(w) = popcount(w) mod 2` (R10). -/
def parity (w : Word) : Bool := popcount w % 2 == 1

/-- The dot-product unit `DOT(r, c) = parity(r & c)` (R181). -/
def dot (r c : Word) : Bool := parity (r &&& c)

/-- `OR over i in 0..n-1 of f(i)`, 0 for the empty range (R10). -/
def orBelow (f : Nat → Word) : Nat → Word
  | 0 => 0
  | n + 1 => orBelow f n ||| f n

/-- `OR over i in 0..n-1 of (zext_64(b(i)) << i)`: element `i` becomes bit `i` (the form shared by R150, R152, R186). -/
def gather (n : Nat) (b : Nat → Bool) : Word := orBelow (fun i => zextBit (b i) <<< i) n

end Sys2Proof.Machine
end

