-- ==== Sys2Proof/Machine/Slot.lean ====
section
/-! DEFINITION. A matrix slot (10_state.md R20 to R24) and the sequence buffer's entries. -/

namespace Sys2Proof.Machine

/-- `f k, f (k + 1), ..., f (k + n - 1)`. -/
def listFrom {α : Type} (f : Nat → α) : (n k : Nat) → List α
  | 0, _ => []
  | n + 1, k => f k :: listFrom f n (k + 1)

theorem length_listFrom {α : Type} (f : Nat → α) (n k : Nat) : (listFrom f n k).length = n := by
  induction n generalizing k with
  | zero => rfl
  | succ n ih => simp [listFrom, ih]

/-- The `n` values of `f` at `0..n-1`: how every unit that writes many words or entries at once says what each becomes. -/
def tabulate {α : Type} (n : Nat) (f : Nat → α) : Vector α n := ⟨⟨listFrom f n 0⟩, length_listFrom f n 0⟩

/-- One matrix slot `M[s]` (R21). -/
structure Slot where
  /-- 1 when the slot holds a matrix. -/
  valid : Bool
  /-- The number of rows, legal 1..64. -/
  rows : BitVec 7
  /-- The number of columns, legal 1..64. -/
  cols : BitVec 7
  /-- Bit `j` of `w[i]` holds entry `(i, j)`. -/
  w : Vector Word 64
  deriving DecidableEq, Repr

/-- Word `k` of 64, and 0 past the last one. Only a state no run reaches names a word past the last (log 15). -/
def rowAt (w : Vector Word 64) (k : Nat) : Word := if h : k < 64 then w[k] else 0

/-- `M[s].w[k]`. -/
def Slot.word (m : Slot) (k : Nat) : Word := rowAt m.w k

/-- `SEQ[e]`, and 0 past the last entry (log 15). -/
def seqAt (q : Vector Byte 64) (e : Nat) : Byte := if h : e < 64 then q[e] else 0

/-- The zero matrix of a shape, as NEW and NEWDEF write it (R110, R113). -/
def Slot.zero (rows cols : BitVec 7) : Slot :=
  { valid := true, rows := rows, cols := cols, w := Vector.replicate 64 0 }

/-- A slot right after reset: empty (R30). Its other fields are unspecified there; the zeros are log 1's choice. -/
def Slot.afterReset : Slot := { valid := false, rows := 0, cols := 0, w := Vector.replicate 64 0 }

/-- The canonical form that R24 requires of a valid slot. -/
abbrev Slot.canonical (m : Slot) : Prop :=
  1 ≤ m.rows.toNat ∧ m.rows.toNat ≤ 64 ∧ 1 ≤ m.cols.toNat ∧ m.cols.toNat ≤ 64 ∧
  (∀ i, i < 64 → m.word i &&& ~~~ lowMask m.cols.toNat = 0) ∧
  (∀ i, i < 64 → m.rows.toNat ≤ i → m.word i = 0)

/-- The slot invariant: a valid slot is canonical (R24). -/
abbrev Slot.wf (m : Slot) : Prop := m.valid = true → m.canonical

end Sys2Proof.Machine
end

