-- ==== Sys2Proof/Config.lean ====
section
/-! DEFINITION. What the spec leaves to the implementation: the latency parameter and the values of the response outputs
while no response is presented. Each is a constant with no body, so that nothing can be proved of its value.

The parameters of R7 and R8 that are fixed stand as numerals in the types: WORD_BITS = 64 (Word), NSLOT = 4 (SlotNum),
SEQ_DEPTH = 64 (Vector Byte 64), 8-bit elements (Byte), 4-bit STATUS, 64-bit DATA and RESULT, 8-bit index fields. -/

namespace Sys2Proof

/-- `LAT(op, operands) - 1`: R262 makes the latency finite and at least 1, and lets it differ between commands and
operand values. The operands of a command are its word, its DATA, the slot file and the sequence buffer (log 6). -/
opaque Config.extraLatency (cmd : CmdWord) (data : Word) (slots : Vector Machine.Slot 4) (seq : Vector Byte 64) : Nat

/-- `LAT(op, operands)`: the number of rising edges from acceptance to completion, at least 1 (R262). -/
def Config.latency (cmd : CmdWord) (data : Word) (slots : Vector Machine.Slot 4) (seq : Vector Byte 64) : Nat :=
  Config.extraLatency cmd data slots seq + 1

/-- The level of `rsp_status` before the edge of that number, where `rsp_valid` = 0: unspecified (R58, R261, U2; log 5). -/
opaque Config.idleStatus (edge : Nat) : BitVec 4

/-- The level of `rsp_result` before the edge of that number, where `rsp_valid` = 0: unspecified (R58, R261, U2; log 5). -/
opaque Config.idleResult (edge : Nat) : Word

end Sys2Proof
end

