-- ==== Sys2Proof/Machine/State.lean ====
section
/-! DEFINITION. The state of the block (10_state.md), its value after reset (R30), and the reasons a step can stop. -/

namespace Sys2Proof.Machine

/-- The STATUS of a response (R221). -/
inductive Status where
  | ok
  | invalidDimension
  | indexOutOfBounds
  | invalidValue
  | lengthMismatch
  | typeNotIndexable
  | dimensionMismatch
  | slotEmpty
  | illegalCommand
  deriving DecidableEq, Repr

/-- The phase `PH` of the command channel (R29). -/
inductive Phase where
  /-- The block accepts a command. -/
  | idle
  /-- A command has been accepted and not completed. -/
  | busy
  /-- The command has completed and its response is presented. -/
  | resp
  deriving DecidableEq, Repr

/-- The levels of the input ports at one rising edge of `clk` (R55). -/
structure Pins where
  rst : Bool
  cmdValid : Bool
  cmdWord : CmdWord
  cmdData : Word
  rspReady : Bool
  deriving DecidableEq, Repr

/-- The input ports when the host drives nothing: no reset, no command, no response taken. -/
def Pins.quiet : Pins := { rst := false, cmdValid := false, cmdWord := 0, cmdData := 0, rspReady := false }

/-- No fault exists: "There are no traps, exceptions in the processor sense, or interrupts" (R220). Every error is a
response STATUS, so no step stops with a fault. Safe. -/
inductive Fault where
  deriving DecidableEq, Repr

/-- Why a step could be refused. -/
inductive Refusal where
  /-- An instruction without a meaning. No arm of exec raises it. Safe: the step stops. -/
  | notModelled (mnemonic : String)
  deriving DecidableEq, Repr

/-- The state of the block. Everything down to `rspResult` is named by 10_state.md; the next three hold the command
accepted and not completed (log 3); the last two are the model's own (logs 4 and 5). -/
structure State where
  /-- The slot file `M[0..3]` (R20, R21). -/
  slots : Vector Slot 4
  /-- The sequence buffer `SEQ[0..63]` (R27). -/
  seq : Vector Byte 64
  /-- `PH` (R29). -/
  phase : Phase
  /-- `RSP_STATUS` (R29). -/
  rspStatus : BitVec 4
  /-- `RSP_RESULT` (R29). -/
  rspResult : Word
  /-- `cmd_word` as sampled at the accepting edge (R57, R259). -/
  cmdReg : CmdWord
  /-- `cmd_data` as sampled at the accepting edge (R57, R259). -/
  dataReg : Word
  /-- How many more edges pass before the edge at which the command completes (R58). -/
  wait : Nat
  /-- The levels of the input ports at the coming edges, the next edge first; quiet when none is listed. -/
  inputs : List Pins
  /-- How many rising edges have passed. -/
  edges : Nat
  deriving DecidableEq, Repr

/-- The block right after reset (R30): every slot empty, SEQ 0, `PH` IDLE. The values R30 leaves unspecified are logs 1,
2 and 3; no input is listed and no edge counted. -/
def State.reset : State :=
  { slots := Vector.replicate 4 Slot.afterReset
    seq := Vector.replicate 64 0
    phase := .idle
    rspStatus := 0
    rspResult := 0
    cmdReg := 0
    dataReg := 0
    wait := 0
    inputs := []
    edges := 0 }

/-- What a meaning answers. -/
abbrev Result := Host.Outcome State Fault Refusal

end Sys2Proof.Machine
end

