-- ==== Sys2Proof/Machine/Flags.lean ====
section
/-! DEFINITION. The block has no condition flags and none is sticky (R31, R235): what a command leaves behind about its
outcome is the 4-bit STATUS of its own response. This file holds its codes. -/

namespace Sys2Proof.Machine

/-- The 4-bit code of a STATUS (R221). -/
def Status.code : Status → BitVec 4
  | .ok => 0x0
  | .invalidDimension => 0x1
  | .indexOutOfBounds => 0x2
  | .invalidValue => 0x3
  | .lengthMismatch => 0x4
  | .typeNotIndexable => 0x5
  | .dimensionMismatch => 0x6
  | .slotEmpty => 0x7
  | .illegalCommand => 0x8

end Sys2Proof.Machine
end

