-- ==== Sys2Proof/Machine/Operands.lean ====
section
/-! DEFINITION. The checks a command makes of its operands before it writes anything (R154, R222): dimensions, indices,
the value of SET, the sequence of SETROW and SETCOL, the shapes of ADD, SUB and MUL. -/

namespace Sys2Proof.Machine

/-- Both dimensions of NEW lie in 1..64 (R110, R111). -/
abbrev dimOk (r c : Int) : Prop := (1 ≤ r ∧ r ≤ 64) ∧ (1 ≤ c ∧ c ≤ 64)

/-- `ROW_OK(s, i)` (R132). -/
abbrev rowOk (m : Slot) (i : Int) : Prop := 0 ≤ i ∧ i < (m.rows.toNat : Int)

/-- `COL_OK(s, j)` (R132). -/
abbrev colOk (m : Slot) (j : Int) : Prop := 0 ≤ j ∧ j < (m.cols.toNat : Int)

/-- The octet index of SEQLD lies in 0..7 (R168). -/
abbrev octetOk (k : Int) : Prop := 0 ≤ k ∧ k ≤ 7

/-- The whole 64-bit value of SET is 0 or 1 (R83, R134). -/
abbrev valueOk (v : Word) : Prop := v = 0#64 ∨ v = 1#64

/-- The sequence length in DATA, all 64 bits unsigned, is the required one (R83, R158, R164). -/
abbrev lengthOk (d : Word) (n : Nat) : Prop := d.toNat = n

/-- `SEQOK(n)`: each of the first `n` elements is 0 or 1 (R153). -/
abbrev seqOk (q : Vector Byte 64) (n : Nat) : Prop := ∀ e, e < n → (seqAt q e).toNat ≤ 1

/-- The two matrices of ADD or SUB have the same shape (R182). -/
abbrev sameShape (a b : Slot) : Prop := a.rows = b.rows ∧ a.cols = b.cols

/-- The inner dimensions of MUL agree (R186). -/
abbrev innerOk (a b : Slot) : Prop := a.cols = b.rows

end Sys2Proof.Machine
end

