-- ==== Sys2Proof/Machine/Ops.lean ====
section
/-! DEFINITION. The named operations over the slot file, the sequence buffer and the response registers, and the column
and sequence units of 42_row_column_access.md. `fail` stands where a processor takes an exception: the block has none
(R220, R227), an error is a response, and nothing returns from it (R228). -/

namespace Sys2Proof.Machine

/-- `M[k]`. -/
def State.slot (s : State) (k : SlotNum) : Slot := s.slots[k]

/-- `M[k] <- m`, all fields together (R61). -/
def State.setSlot (s : State) (k : SlotNum) (m : Slot) : State := { s with slots := s.slots.set k m }

/-- The response of a completed command: `RSP_STATUS` and `RSP_RESULT` are loaded and `PH` becomes RESP (R58). -/
def State.respond (s : State) (st : Status) (res : Word) : State :=
  { s with phase := .resp, rspStatus := st.code, rspResult := res }

/-- `return (OK, result)` after the command's writes (R10, R93). -/
def succeed (res : Word) (s : State) : Result := .next (s.respond .ok res)

/-- `fail(code)`: the response `(code, 0)` and no state write (R10, R223). -/
def fail (st : Status) (s : State) : Result := .next (s.respond st 0)

/-- The slot with word `k` replaced; every other word and field as before (R61). -/
def Slot.setWord (m : Slot) (k : Nat) (v : Word) : Slot :=
  { m with w := tabulate 64 fun x => if x = k then v else rowAt m.w x }

/-- `COLGET(s, j)`: bit `i` of the result is entry `(i, j)` for `i < rows` (R150). -/
def colGet (m : Slot) (j : Nat) : Word := gather m.rows.toNat fun i => bext (m.word i) j

/-- `COLSET(s, j)`: bit `j` of each word `i < rows` becomes bit 0 of `SEQ[i]` (R151). -/
def colSet (q : Vector Byte 64) (m : Slot) (j : Nat) : Slot :=
  { m with w := tabulate 64 fun x =>
      if x < m.rows.toNat then brep (rowAt m.w x) j ((seqAt q x).getLsbD 0) else rowAt m.w x }

/-- `SEQPACK(n)`: element `e` becomes bit `e` (R152). -/
def seqPack (q : Vector Byte 64) (n : Nat) : Word := gather n fun e => (seqAt q e).getLsbD 0

/-- Byte lane `e` of DATA, bits `8e+7..8e` (R54). -/
def byteLane (d : Word) (e : Nat) : Byte := d.extractLsb' (8 * e) 8

/-- `SEQ[8k+e] <- byte lane e of DATA` for `e` in 0..7; every other entry as before (R54, R168). -/
def seqLoad (q : Vector Byte 64) (k : Nat) (d : Word) : Vector Byte 64 :=
  tabulate 64 fun x => if x / 8 = k then byteLane d (x % 8) else seqAt q x

/-- The matrix that ADD and SUB write: every word the row XOR of the sources' words (R182). -/
def xorSlots (a b : Slot) : Slot :=
  { valid := true, rows := a.rows, cols := a.cols, w := tabulate 64 fun k => rxor (rowAt a.w k) (rowAt b.w k) }

/-- The matrix that MUL writes: bit `j` of word `k` is `DOT` of row `k` of `a` and column `j` of `b` (R186). -/
def mulSlots (a b : Slot) : Slot :=
  { valid := true, rows := a.rows, cols := b.cols,
    w := tabulate 64 fun k =>
      if k < a.rows.toNat then gather b.cols.toNat fun j => dot (rowAt a.w k) (colGet b j) else 0 }

/-- The RESULT of SIZE: rows in bits 7:0, columns in bits 15:8 (R117). -/
def sizeWord (m : Slot) : Word := (m.cols.setWidth 64 <<< 8) ||| m.rows.setWidth 64

end Sys2Proof.Machine
end

