-- ==== Sys2Proof/Machine/Arithmetic.lean ====
section
/-! DEFINITION. Arithmetic over GF(2) (43_arithmetic.md): ADD, SUB, MUL. Every operand is read before the destination is
written, so the destination may be a source (R60). -/

namespace Sys2Proof.Machine

/-- The one rule of R182, which R184 gives SUB too. -/
def addSlots (md ma mb : SlotNum) (s : State) : Result :=
  let a := s.slot ma
  let b := s.slot mb
  if a.valid = false ∨ b.valid = false then fail .slotEmpty s
  else if ¬ sameShape a b then fail .dimensionMismatch s
  else succeed 0 (s.setSlot md (xorSlots a b))

/-- ADD (R182). -/
def execAdd (md ma mb : SlotNum) (s : State) : Result := addSlots md ma mb s

/-- SUB (R184): "the pseudocode of rule R182, same statuses, same writes". -/
def execSub (md ma mb : SlotNum) (s : State) : Result := addSlots md ma mb s

/-- MUL (R186). -/
def execMul (md ma mb : SlotNum) (s : State) : Result :=
  let a := s.slot ma
  let b := s.slot mb
  if a.valid = false ∨ b.valid = false then fail .slotEmpty s
  else if ¬ innerOk a b then fail .dimensionMismatch s
  else succeed 0 (s.setSlot md (mulSlots a b))

end Sys2Proof.Machine
end

