-- ==== Sys2Proof/Machine/Construction.lean ====
section
/-! DEFINITION. Construction and size (40_construction.md): NEW, NEWDEF, SIZE. -/

namespace Sys2Proof.Machine

/-- NEW (R110 to R112): a zero matrix of a checked shape, over whatever the slot held. -/
def execNew (md : SlotNum) (r c : Int) (s : State) : Result :=
  if ¬ dimOk r c then fail .invalidDimension s
  else succeed 0 (s.setSlot md (Slot.zero (BitVec.ofInt 7 r) (BitVec.ofInt 7 c)))

/-- NEWDEF (R113, R114): the 64 by 64 zero matrix; it never fails. -/
def execNewdef (md : SlotNum) (s : State) : Result :=
  succeed 0 (s.setSlot md (Slot.zero 64 64))

/-- SIZE (R116, R117). -/
def execSize (ma : SlotNum) (s : State) : Result :=
  if (s.slot ma).valid = false then fail .slotEmpty s
  else succeed (sizeWord (s.slot ma)) s

end Sys2Proof.Machine
end

