-- ==== Sys2Proof/Machine/ElementAccess.lean ====
section
/-! DEFINITION. The element getter and setter (41_element_access.md): GET, SET. The checks stand in the order of R224. -/

namespace Sys2Proof.Machine

/-- GET (R133). -/
def execGet (ma : SlotNum) (i j : Int) (s : State) : Result :=
  let m := s.slot ma
  if m.valid = false then fail .slotEmpty s
  else if ¬ (rowOk m i ∧ colOk m j) then fail .indexOutOfBounds s
  else succeed (zextBit (bext (m.word i.toNat) j.toNat)) s

/-- SET (R134). -/
def execSet (md : SlotNum) (i j : Int) (v : Word) (s : State) : Result :=
  let m := s.slot md
  if m.valid = false then fail .slotEmpty s
  else if ¬ (rowOk m i ∧ colOk m j) then fail .indexOutOfBounds s
  else if ¬ valueOk v then fail .invalidValue s
  else succeed 0 (s.setSlot md (m.setWord i.toNat (brep (m.word i.toNat) j.toNat (v.getLsbD 0))))

end Sys2Proof.Machine
end

