-- ==== Sys2Proof/Machine/RankEngine.lean ====
section
/-! DEFINITION. The Gaussian-elimination rank engine (44_rank.md R201 to R205), on a working copy that no slot shares
(R206) and that does not outlive the command (R32). -/

namespace Sys2Proof.Machine

/-- `PIVOT(W, c, p, n)`: the smallest `r` with `p <= r <= n-1` whose word has bit `c` set (R202). -/
def pivot (W : Vector Word 64) (c p n : Nat) : Option Nat :=
  (List.range' p (n - p)).find? fun r => bext (rowAt W r) c

/-- `SWAP(W, p, r)` (R203). -/
def swapRows (W : Vector Word 64) (p r : Nat) : Vector Word 64 :=
  tabulate 64 fun x => if x = p then rowAt W r else if x = r then rowAt W p else rowAt W x

/-- The conditional XOR of R204: every row `q < n` other than `p` whose bit `c` is 1 becomes `RXOR(W[q], W[p])`. The rows
are written all at once, which R204 allows. -/
def eliminate (W : Vector Word 64) (c p n : Nat) : Vector Word 64 :=
  tabulate 64 fun q =>
    if q < n ∧ q ≠ p ∧ bext (rowAt W q) c = true then rxor (rowAt W q) (rowAt W p) else rowAt W q

/-- The column loop of R201 from column `c` on, `k` columns left, `p` pivots found; it stops when `p` reaches `lim`
(R205). -/
def rankFrom (n lim : Nat) : (k c : Nat) → (W : Vector Word 64) → (p : Nat) → Nat
  | 0, _, _, p => p
  | k + 1, c, W, p =>
    match pivot W c p n with
    | none => rankFrom n lim k (c + 1) W p
    | some r =>
      if p + 1 = lim then p + 1
      else rankFrom n lim k (c + 1) (eliminate (swapRows W p r) c p n) (p + 1)

/-- `RANKENG(A)` (R201). -/
def rankEng (m : Slot) : Nat :=
  rankFrom m.rows.toNat (min m.rows.toNat m.cols.toNat) m.cols.toNat 0 m.w 0

end Sys2Proof.Machine
end

