-- ==== Sys2Proof/Machine/Rank.lean ====
section
/-! DEFINITION. The command RANK (44_rank.md R200, R206). -/

namespace Sys2Proof.Machine

/-- RANK (R200): the engine's pivot count; no slot is written (R206). -/
def execRank (ma : SlotNum) (s : State) : Result :=
  if (s.slot ma).valid = false then fail .slotEmpty s
  else succeed (BitVec.ofNat 64 (rankEng (s.slot ma))) s

end Sys2Proof.Machine
end

