-- ==== Sys2Proof/Machine/Reserved.lean ====
section
/-! DEFINITION. The reserved opcodes (R86) and the reserved bits (R87): all are answered with IllegalCommand. -/

namespace Sys2Proof.Machine

/-- Opcode 0xE (R86). -/
def execReservedE (s : State) : Result := fail .illegalCommand s

/-- Opcode 0xF (R86). -/
def execReservedF (s : State) : Result := fail .illegalCommand s

/-- A command word with a reserved bit set, whatever its opcode (R87). -/
def execReservedBits (s : State) : Result := fail .illegalCommand s

end Sys2Proof.Machine
end

