-- ==== Sys2Proof/Machine/RowColumn.lean ====
section
/-! DEFINITION. Row and column access (42_row_column_access.md): GETROW, SETROW, GETCOL, SETCOL, SEQLD. Every check stands
before the write (R154), in the order of R224. -/

namespace Sys2Proof.Machine

/-- GETROW (R155): the row word itself (R53). -/
def execGetrow (ma : SlotNum) (i : Int) (s : State) : Result :=
  let m := s.slot ma
  if m.valid = false then fail .slotEmpty s
  else if ¬ rowOk m i then fail .indexOutOfBounds s
  else succeed (m.word i.toNat) s

/-- SETROW (R158). -/
def execSetrow (md : SlotNum) (i : Int) (isSeq : Bool) (d : Word) (s : State) : Result :=
  let m := s.slot md
  if m.valid = false then fail .slotEmpty s
  else if ¬ rowOk m i then fail .indexOutOfBounds s
  else if isSeq = false then fail .typeNotIndexable s
  else if ¬ lengthOk d m.cols.toNat then fail .lengthMismatch s
  else if ¬ seqOk s.seq m.cols.toNat then fail .invalidValue s
  else succeed 0 (s.setSlot md (m.setWord i.toNat (seqPack s.seq m.cols.toNat)))

/-- GETCOL (R161): the column word (R53). -/
def execGetcol (ma : SlotNum) (j : Int) (s : State) : Result :=
  let m := s.slot ma
  if m.valid = false then fail .slotEmpty s
  else if ¬ colOk m j then fail .indexOutOfBounds s
  else succeed (colGet m j.toNat) s

/-- SETCOL (R164). -/
def execSetcol (md : SlotNum) (j : Int) (isSeq : Bool) (d : Word) (s : State) : Result :=
  let m := s.slot md
  if m.valid = false then fail .slotEmpty s
  else if ¬ colOk m j then fail .indexOutOfBounds s
  else if isSeq = false then fail .typeNotIndexable s
  else if ¬ lengthOk d m.rows.toNat then fail .lengthMismatch s
  else if ¬ seqOk s.seq m.rows.toNat then fail .invalidValue s
  else succeed 0 (s.setSlot md (colSet s.seq m j.toNat))

/-- SEQLD (R168). -/
def execSeqld (k : Int) (d : Word) (s : State) : Result :=
  if ¬ octetOk k then fail .indexOutOfBounds s
  else succeed 0 { s with seq := seqLoad s.seq k.toNat d }

end Sys2Proof.Machine
end

