-- ==== Sys2Proof/Machine/Dispatch.lean ====
section
/-! DEFINITION. Which meaning each command has: the case split of 30_encoding.md R100. -/

namespace Sys2Proof.Machine

def exec (i : Instr) (s : State) : Host.Outcome State Fault Refusal :=
  match i with
  | .new md r c => Sys2Proof.Machine.execNew md r c s
  | .newdef md => Sys2Proof.Machine.execNewdef md s
  | .get ma row col => Sys2Proof.Machine.execGet ma row col s
  | .set md row col v => Sys2Proof.Machine.execSet md row col v s
  | .getrow ma row => Sys2Proof.Machine.execGetrow ma row s
  | .setrow md row q d => Sys2Proof.Machine.execSetrow md row q d s
  | .getcol ma j => Sys2Proof.Machine.execGetcol ma j s
  | .setcol md j q d => Sys2Proof.Machine.execSetcol md j q d s
  | .add md ma mb => Sys2Proof.Machine.execAdd md ma mb s
  | .sub md ma mb => Sys2Proof.Machine.execSub md ma mb s
  | .mul md ma mb => Sys2Proof.Machine.execMul md ma mb s
  | .rank ma => Sys2Proof.Machine.execRank ma s
  | .size ma => Sys2Proof.Machine.execSize ma s
  | .seqld k d => Sys2Proof.Machine.execSeqld k d s
  | .reservedE => Sys2Proof.Machine.execReservedE s
  | .reservedF => Sys2Proof.Machine.execReservedF s

end Sys2Proof.Machine
end

