-- ==== Sys2Proof/Machine/Channel.lean ====
section
/-! DEFINITION. The command channel of 20_memory.md and 70_reset_and_hazards.md: the ports, the completion of an accepted
command, and what one rising edge of `clk` does. -/

namespace Sys2Proof.Machine

/-- `Exec(st, cmd, data)` (R100): reserved bits are answered first (R87), every other word runs its command. -/
def runCommand (cmd : CmdWord) (data : Word) (s : State) : Result :=
  match decode cmd data with
  | .ok i => exec i s
  | .error .reservedBits => execReservedBits s

/-- The levels of the input ports at the coming edge: the head of the list, quiet when none is left (log 4). -/
def State.pins (s : State) : Pins := s.inputs.headD Pins.quiet

/-- The coming edge is past: its input levels are consumed and the edge is counted. -/
def State.advance (s : State) : State := { s with inputs := s.inputs.tail, edges := s.edges + 1 }

/-- An edge with `rst` = 1: the reset state, whatever the phase (R250), which abandons the command in flight (R252). The
inputs to come and the count of edges are the model's own and go on. -/
def State.resetEdge (s : State) : State := { State.reset with inputs := s.inputs, edges := s.edges }

/-- An edge at which a command is accepted (R57): the port is sampled, `PH` becomes BUSY, and the command completes
`LAT(op)` edges later (R58). -/
def State.accept (s : State) (p : Pins) : State :=
  { s with
    phase := .busy
    cmdReg := p.cmdWord
    dataReg := p.cmdData
    wait := Config.latency p.cmdWord p.cmdData s.slots s.seq - 1 }

/-- What a rising edge with input levels `p` does (R57, R58, R59, R250). A command reads its operands at its completing
edge; only a reset edge could have changed them since its acceptance, and that abandons it (log 8). -/
def edge (p : Pins) (s : State) : Result :=
  if p.rst = true then .next s.resetEdge
  else match s.phase with
    | .idle => .next (if p.cmdValid = true then s.accept p else s)
    | .busy =>
      match s.wait with
      | 0 => runCommand s.cmdReg s.dataReg s
      | n + 1 => .next { s with wait := n }
    | .resp => .next (if p.rspReady = true then { s with phase := .idle } else s)

/-- The levels of the output ports (R55). -/
structure Ports where
  cmdReady : Bool
  rspValid : Bool
  rspStatus : BitVec 4
  rspResult : Word
  deriving DecidableEq, Repr

/-- The output ports before the coming edge: `cmd_ready` and `rsp_valid` follow the phase (R55) and are 0 while `rst` is 1
(R251); the response outputs show the held response while it is presented, and are free values otherwise (R58, R261).
DESIGN CHOICE, unsafe: in a state that stands for the block before its first reset, where R253 and U3 leave the handshake
outputs open, they follow phase and `rst` all the same (log 21). -/
def State.ports (s : State) : Ports :=
  let presented := !s.pins.rst && s.phase == .resp
  { cmdReady := !s.pins.rst && s.phase == .idle
    rspValid := presented
    rspStatus := if presented then s.rspStatus else Config.idleStatus s.edges
    rspResult := if presented then s.rspResult else Config.idleResult s.edges }

/-- The state in which the coming edge completes the command `cmd` with operand `data`: it has been accepted, its last
edge of latency is about to come, and `rst` is 0 at that edge. Nothing else differs from `s`. -/
def State.aboutToRun (s : State) (cmd : CmdWord) (data : Word) : State :=
  { s with
    phase := .busy
    cmdReg := cmd
    dataReg := data
    wait := 0
    inputs := s.inputs.set 0 { s.pins with rst := false } }

end Sys2Proof.Machine
end

