-- ==== Sys2Proof/Machine/Step.lean ====
section
/-! DEFINITION. One step: one rising edge of `clk`. -/

namespace Sys2Proof.Machine

/-- One rising edge of `clk`, at which the block reads the input levels listed first in `inputs`. -/
def step (s : State) : Host.Outcome State Fault Refusal := edge s.pins s.advance

/-- `s` with the instruction whose bits are `w` (command word in bits 31:0, DATA above) accepted and about to complete, so
that the next step runs it (log 7). -/
def State.withFetchWord (s : State) (nbits w : Nat) : State :=
  let v := w % 2 ^ nbits
  s.aboutToRun (BitVec.ofNat 32 v) (BitVec.ofNat 64 (v / 2 ^ 32))

end Sys2Proof.Machine
end

