-- ==== Sys2Proof/Machine/Assembler.lean ====
section
/-! DEFINITION. The assembler's side of 30_encoding.md: the pseudo-instructions (R92) as lists of commands, the execution
of a list one command after another, and the written syntax of a command (R90, R91). -/

namespace Sys2Proof.Machine

/-- `d_k = sum over e in 0..7 of (e(8k+e) << 8e)`, an element beyond the last counted as 0 (R92). -/
def octetWord (es : List Byte) (k : Nat) : Word :=
  orBelow (fun e => (es.getD (8 * k + e) 0).setWidth 64 <<< (8 * e)) 8

/-- LDSEQ accepts 1 to 64 elements (R92). -/
abbrev sequenceOk (es : List Byte) : Prop := 1 ≤ es.length ∧ es.length ≤ 64

/-- LDSEQ: `SEQLD k, #d_k` for `k` in `0..ceil(n/8)-1` (R92). -/
def ldseq (es : List Byte) : List Instr :=
  (List.range ((es.length + 7) / 8)).map fun (k : Nat) => .seqld k (octetWord es k)

/-- SETROWV: LDSEQ, then SETROW with the sequence's length (R92). -/
def setrowv (md : SlotNum) (i : Int) (es : List Byte) : List Instr :=
  ldseq es ++ [.setrow md i true (BitVec.ofNat 64 es.length)]

/-- SETCOLV: LDSEQ, then SETCOL with the sequence's length (R92). -/
def setcolv (md : SlotNum) (j : Int) (es : List Byte) : List Instr :=
  ldseq es ++ [.setcol md j true (BitVec.ofNat 64 es.length)]

/-- The commands of a list, one after another, not as one atomic command (R62, R92). -/
def execAll : List Instr → State → Result
  | [], s => .next s
  | i :: rest, s =>
    match exec i s with
    | .next t => execAll rest t
    | .fault f => .fault f
    | .refused r => .refused r

/-- A slot is written `m0`..`m3` (R90). -/
def slotText (k : SlotNum) : String := "m" ++ toString k.val

/-- A DATA operand is written `#v` (R90); decimal here. -/
def dataText (d : Word) : String := "#" ++ toString d.toNat

/-- The written syntax of a command (R91); SETROW and SETCOL with a scalar carry the suffix `.SC`. The reserved opcodes
have no spelling: the assembler refuses them (U8), and the test notation RAW of 95_test_vectors.md stands for them. -/
def commandText : Instr → Option String
  | .new md r c => some ("NEW " ++ slotText md ++ ", " ++ toString r ++ ", " ++ toString c)
  | .newdef md => some ("NEWDEF " ++ slotText md)
  | .get ma i j => some ("GET " ++ slotText ma ++ ", " ++ toString i ++ ", " ++ toString j)
  | .set md i j v =>
    some ("SET " ++ slotText md ++ ", " ++ toString i ++ ", " ++ toString j ++ ", " ++ dataText v)
  | .getrow ma i => some ("GETROW " ++ slotText ma ++ ", " ++ toString i)
  | .setrow md i q d =>
    some ((if q then "SETROW " else "SETROW.SC ") ++ slotText md ++ ", " ++ toString i ++ ", " ++ dataText d)
  | .getcol ma j => some ("GETCOL " ++ slotText ma ++ ", " ++ toString j)
  | .setcol md j q d =>
    some ((if q then "SETCOL " else "SETCOL.SC ") ++ slotText md ++ ", " ++ toString j ++ ", " ++ dataText d)
  | .add md ma mb => some ("ADD " ++ slotText md ++ ", " ++ slotText ma ++ ", " ++ slotText mb)
  | .sub md ma mb => some ("SUB " ++ slotText md ++ ", " ++ slotText ma ++ ", " ++ slotText mb)
  | .mul md ma mb => some ("MUL " ++ slotText md ++ ", " ++ slotText ma ++ ", " ++ slotText mb)
  | .rank ma => some ("RANK " ++ slotText ma)
  | .size ma => some ("SIZE " ++ slotText ma)
  | .seqld k d => some ("SEQLD " ++ toString k ++ ", " ++ dataText d)
  | .reservedE => none
  | .reservedF => none

end Sys2Proof.Machine
end

