-- ==== Sys2Proof/Safety.lean ====
section
/-! DEFINITION. What counts as a safe run, and the words the statements are written in: the slot invariant of the whole
file, legal responses, what an instruction leaves unchanged, entries and matrices over GF(2), the bit fields of a command
word, the status that R224's order gives, and runs of many edges. Each is written from the spec on its own, not from
the meanings it is compared with. -/

namespace Sys2Proof.Safety

open Sys2Proof.Machine

/-- Every valid slot is canonical (R24). -/
abbrev SlotsCanonical (s : State) : Prop := ∀ k : SlotNum, s.slots[k].wf

/-- The response registers hold a STATUS that R221 lists, and RESULT 0 when it is not OK (R221, R223). -/
abbrev LegalResponse (s : State) : Prop := s.rspStatus.toNat ≤ 8 ∧ (s.rspStatus ≠ 0 → s.rspResult = 0)

/-- Entry `(i, j)`: bit `j` of word `i` (R52). -/
def entry (m : Slot) (i j : Nat) : Bool := (m.word i).getLsbD j

/-- `s` with the response `(code, result)` presented and nothing else changed. -/
def answered (s : State) (code : BitVec 4) (result : Word) : State :=
  { s with phase := .resp, rspStatus := code, rspResult := result }

/-- `t` presents the response `(code, result)` (R29). -/
abbrev Answers (t : State) (code : BitVec 4) (result : Word) : Prop :=
  t.phase = .resp ∧ t.rspStatus = code ∧ t.rspResult = result

/-- What no command writes: the accepted command and what the model holds of the host and the clock. -/
abbrev KeepsChannel (s t : State) : Prop :=
  t.cmdReg = s.cmdReg ∧ t.dataReg = s.dataReg ∧ t.wait = s.wait ∧ t.inputs = s.inputs ∧ t.edges = s.edges

/-- The frame of a command that writes slot `md` and its response: every other slot, SEQ and the channel's other registers
are as before. -/
abbrev WritesOnlySlot (md : SlotNum) (s t : State) : Prop :=
  (∀ k : SlotNum, k ≠ md → t.slots[k] = s.slots[k]) ∧ t.seq = s.seq ∧ KeepsChannel s t

/-- The two slots agree in `valid`, `rows` and `cols`. -/
abbrev SameShape (a b : Slot) : Prop := a.valid = b.valid ∧ a.rows = b.rows ∧ a.cols = b.cols

/-- `i` is a row index of the matrix (R132). -/
abbrev RowIn (m : Slot) (i : Int) : Prop := 0 ≤ i ∧ i < (m.rows.toNat : Int)

/-- `j` is a column index of the matrix (R132). -/
abbrev ColIn (m : Slot) (j : Int) : Prop := 0 ≤ j ∧ j < (m.cols.toNat : Int)

/-- The first `n` elements of SEQ are 0 or 1 (R28, R153). -/
abbrev Binary (s : State) (n : Nat) : Prop := ∀ e, e < n → seqAt s.seq e = 0 ∨ seqAt s.seq e = 1

/-- The slot as a matrix over GF(2) (R13). -/
def toMatrix (m : Slot) (r c : Nat) : Matrix (Fin r) (Fin c) (ZMod 2) :=
  Matrix.of fun i j => if entry m i.val j.val = true then 1 else 0

/-- The 2-bit slot number at bit `lo` of a command word (R81). -/
def slotBits (w : CmdWord) (lo : Nat) : SlotNum := ⟨w.toNat / 2 ^ lo % 4, Nat.mod_lt _ (by decide)⟩

/-- The 8-bit field at bit `lo` of a command word, in two's complement (R10, R82). -/
def signedBits (w : CmdWord) (lo : Nat) : Int :=
  let v := w.toNat / 2 ^ lo % 256
  if v < 128 then (v : Int) else (v : Int) - 256

/-- Every word whose bits under the mask 0xF000080F are `op` decodes to the command that `f` reads from its fields (R85). -/
def Selects (op : CmdWord) (f : CmdWord → Word → Instr) : Prop :=
  ∀ (w : CmdWord) (d : Word), w &&& 0xF000080F#32 = op → decode w d = .ok (f w d)

/-- The bits of a command word that a command with opcode `op` reads, the opcode and the reserved bits among them: every
letter, 0 and 1 of the table's `encoding` strings (R85, R88). -/
def readMask : Nat → CmdWord
  | 0x0 => 0xFFFFF83F#32
  | 0x1 => 0xF000083F#32
  | 0x2 => 0xFFFFF8CF#32
  | 0x3 => 0xFFFFF83F#32
  | 0x4 => 0xF00FF8CF#32
  | 0x5 => 0xF00FFC3F#32
  | 0x6 => 0xFFF008CF#32
  | 0x7 => 0xFFF00C3F#32
  | 0x8 => 0xF0000BFF#32
  | 0x9 => 0xF0000BFF#32
  | 0xA => 0xF0000BFF#32
  | 0xB => 0xF00008CF#32
  | 0xC => 0xF00008CF#32
  | 0xD => 0xF00FF80F#32
  | _ => 0xF000080F#32

/-- The opcodes whose command reads DATA: SET, SETROW, SETCOL, SEQLD (R83). -/
def readsData (op : Nat) : Bool := op == 0x3 || op == 0x5 || op == 0x7 || op == 0xD

/-- The slots a command reads as operands or modifies in place (R23, R222). -/
def operandSlots : Instr → List SlotNum
  | .new _ _ _ => []
  | .newdef _ => []
  | .get ma _ _ => [ma]
  | .set md _ _ _ => [md]
  | .getrow ma _ => [ma]
  | .setrow md _ _ _ => [md]
  | .getcol ma _ => [ma]
  | .setcol md _ _ _ => [md]
  | .add _ ma mb => [ma, mb]
  | .sub _ ma mb => [ma, mb]
  | .mul _ ma mb => [ma, mb]
  | .rank ma => [ma]
  | .size ma => [ma]
  | .seqld _ _ => []
  | .reservedE => []
  | .reservedF => []

/-- The slot a command may create a matrix in (R26). -/
def createdSlot : Instr → Option SlotNum
  | .new md _ _ => some md
  | .newdef md => some md
  | .get _ _ _ => none
  | .set _ _ _ _ => none
  | .getrow _ _ => none
  | .setrow _ _ _ _ => none
  | .getcol _ _ => none
  | .setcol _ _ _ _ => none
  | .add md _ _ => some md
  | .sub md _ _ => some md
  | .mul md _ _ => some md
  | .rank _ => none
  | .size _ => none
  | .seqld _ _ => none
  | .reservedE => none
  | .reservedF => none

/-- The slot a command may write at all: the created one, or the one a setter modifies (R21). -/
def writtenSlot : Instr → Option SlotNum
  | .new md _ _ => some md
  | .newdef md => some md
  | .get _ _ _ => none
  | .set md _ _ _ => some md
  | .getrow _ _ => none
  | .setrow md _ _ _ => some md
  | .getcol _ _ => none
  | .setcol md _ _ _ => some md
  | .add md _ _ => some md
  | .sub md _ _ => some md
  | .mul md _ _ => some md
  | .rank _ => none
  | .size _ => none
  | .seqld _ _ => none
  | .reservedE => none
  | .reservedF => none

/-- The command is one of the five that change no state but the response (R64). -/
def readsOnly : Instr → Bool
  | .new _ _ _ => false
  | .newdef _ => false
  | .get _ _ _ => true
  | .set _ _ _ _ => false
  | .getrow _ _ => true
  | .setrow _ _ _ _ => false
  | .getcol _ _ => true
  | .setcol _ _ _ _ => false
  | .add _ _ _ => false
  | .sub _ _ _ => false
  | .mul _ _ _ => false
  | .rank _ => true
  | .size _ => true
  | .seqld _ _ => false
  | .reservedE => false
  | .reservedF => false

/-- The cause of InvalidDimension (R222). -/
def dimensionBad : Instr → Bool
  | .new _ r c => decide (r < 1 ∨ 64 < r ∨ c < 1 ∨ 64 < c)
  | _ => false

/-- The cause of IndexOutOfBounds (R222). -/
def indexBad (s : State) : Instr → Bool
  | .get ma i j => decide (¬ RowIn s.slots[ma] i ∨ ¬ ColIn s.slots[ma] j)
  | .set md i j _ => decide (¬ RowIn s.slots[md] i ∨ ¬ ColIn s.slots[md] j)
  | .getrow ma i => decide (¬ RowIn s.slots[ma] i)
  | .setrow md i _ _ => decide (¬ RowIn s.slots[md] i)
  | .getcol ma j => decide (¬ ColIn s.slots[ma] j)
  | .setcol md j _ _ => decide (¬ ColIn s.slots[md] j)
  | .seqld k _ => decide (k < 0 ∨ 7 < k)
  | _ => false

/-- The cause of TypeNotIndexable (R222). -/
def scalarGiven : Instr → Bool
  | .setrow _ _ isSeq _ => !isSeq
  | .setcol _ _ isSeq _ => !isSeq
  | _ => false

/-- The cause of LengthMismatch (R222). -/
def lengthBad (s : State) : Instr → Bool
  | .setrow md _ _ d => d.toNat != s.slots[md].cols.toNat
  | .setcol md _ _ d => d.toNat != s.slots[md].rows.toNat
  | _ => false

/-- The cause of InvalidValue (R222). -/
def valueBad (s : State) : Instr → Bool
  | .set _ _ _ v => decide (1 < v.toNat)
  | .setrow md _ _ _ => decide (¬ Binary s s.slots[md].cols.toNat)
  | .setcol md _ _ _ => decide (¬ Binary s s.slots[md].rows.toNat)
  | _ => false

/-- The cause of DimensionMismatch (R222). -/
def shapeBad (s : State) : Instr → Bool
  | .add _ ma mb => decide (s.slots[ma].rows ≠ s.slots[mb].rows ∨ s.slots[ma].cols ≠ s.slots[mb].cols)
  | .sub _ ma mb => decide (s.slots[ma].rows ≠ s.slots[mb].rows ∨ s.slots[ma].cols ≠ s.slots[mb].cols)
  | .mul _ ma mb => decide (s.slots[ma].cols ≠ s.slots[mb].rows)
  | _ => false

/-- The code of the first check that fails, in the order of R224's items 2 to 7, and 0 when none does. -/
def firstFailing (s : State) (i : Instr) : BitVec 4 :=
  if i.isReserved then 8
  else if (operandSlots i).any fun k => !s.slots[k].valid then 7
  else if dimensionBad i then 1
  else if indexBad s i then 2
  else if scalarGiven i then 5
  else if lengthBad s i then 4
  else if valueBad s i then 3
  else if shapeBad s i then 6
  else 0

/-- Two states that agree in everything a command can observe of slots and SEQ: which slots are empty, the slots that are
not, and SEQ (R23, R30). -/
abbrev SameVisible (s t : State) : Prop :=
  (∀ k : SlotNum, s.slots[k].valid = t.slots[k].valid ∧ (s.slots[k].valid = true → s.slots[k] = t.slots[k])) ∧
    s.seq = t.seq

/-- The column loop of R201 without the early exit that R205 makes optional. -/
def rankFromAll (n : Nat) : (k c : Nat) → (W : Vector Word 64) → (p : Nat) → Nat
  | 0, _, _, p => p
  | k + 1, c, W, p =>
    match pivot W c p n with
    | none => rankFromAll n k (c + 1) W p
    | some r => rankFromAll n k (c + 1) (eliminate (swapRows W p r) c p n) (p + 1)

/-- One row of the elimination step of R204, written in place. -/
def eliminateRow (c p : Nat) (W : Vector Word 64) (q : Nat) : Vector Word 64 :=
  if q ≠ p ∧ (rowAt W q).getLsbD c = true then
    W.setIfInBounds q (rowAt W q ^^^ rowAt W p)
  else W

/-- The edge that comes completes the command in flight (R58). -/
abbrev Completing (s : State) : Prop := s.pins.rst = false ∧ s.phase = .busy ∧ s.wait = 0

/-- `n` edges, stopping at the first stop. -/
def runEdges : Nat → State → Result
  | 0, s => .next s
  | n + 1, s =>
    match step s with
    | .next t => runEdges n t
    | .fault f => .fault f
    | .refused r => .refused r

/-- The commands that complete during the next `n` edges, in order (R62). -/
def completed : Nat → State → List (CmdWord × Word)
  | 0, _ => []
  | n + 1, s =>
    let rest := match step s with
      | .next t => completed n t
      | .fault _ => []
      | .refused _ => []
    if Completing s then (s.cmdReg, s.dataReg) :: rest else rest

/-- The commands of a list executed by `Exec` alone, one after another, with no channel (R16, R100). -/
def execWords : List (CmdWord × Word) → State → Result
  | [], s => .next s
  | c :: rest, s =>
    match runCommand c.1 c.2 s with
    | .next t => execWords rest t
    | .fault f => .fault f
    | .refused r => .refused r

end Sys2Proof.Safety
end

