-- ==== Sys2Proof/Certificates/Slice0/Obligations.lean ====
section
/-! DEFINITION. The statements for the provers. Each says which rule of spec/ it formalises; its words are those of
Safety.lean. A statement that rests on a choice of the model names the log entry. -/

open Sys2Proof Sys2Proof.Machine Sys2Proof.Safety

/-! ### Encoding -/

/-- R81, R85, R91: decoding what the assembler writes gives the command back, for every command whose operands have an
encoding. -/
def Obligations.DecodeInvertsEncode : Prop :=
  ∀ i : Instr, i.wellFormed = true → decode (encode i).1 (encode i).2 = .ok i

/-- R81, R88, R91: every word that decodes gives a well-formed command, and the assembler's word for that command agrees
with it in every bit the command reads, DATA included where the command reads it. -/
def Obligations.EncodeAgreesOnReadBits : Prop :=
  ∀ (w : CmdWord) (d : Word) (i : Instr), decode w d = .ok i →
    i.wellFormed = true ∧
    w &&& readMask (w.toNat % 16) = (encode i).1 &&& readMask (w.toNat % 16) ∧
    (readsData (w.toNat % 16) = true → d = (encode i).2)

/-- R88: "A field that a command does not read ... is ignored: any value in it gives the same response and the same state
writes." And the assembler writes 0 in every ignored field, DATA included. -/
def Obligations.IgnoredFieldsChangeNothing : Prop :=
  (∀ (w w' : CmdWord) (d d' : Word) (s : State),
    w.toNat % 16 = w'.toNat % 16 →
    w &&& readMask (w.toNat % 16) = w' &&& readMask (w.toNat % 16) →
    (readsData (w.toNat % 16) = true → d = d') →
    runCommand w d s = runCommand w' d' s) ∧
  (∀ i : Instr, (encode i).1 &&& ~~~ readMask ((encode i).1.toNat % 16) = 0#32 ∧
    (readsData ((encode i).1.toNat % 16) = false → (encode i).2 = 0))

/-- R87: a command with a bit of 31:28 or bit 11 set fails with IllegalCommand (8), whatever its opcode and before every
other check, writes no state and returns RESULT 0. -/
def Obligations.ReservedBitsAnswerIllegalCommand : Prop :=
  ∀ (w : CmdWord) (d : Word) (s : State), w &&& 0xF0000800#32 ≠ 0#32 →
    runCommand w d s = .next (answered s 8 0)

/-- R86: opcodes 0xE and 0xF fail with IllegalCommand (8), write no state and return RESULT 0. -/
def Obligations.ReservedOpcodesAnswerIllegalCommand : Prop :=
  Selects 0xE#32 (fun _ _ => .reservedE) ∧ Selects 0xF#32 (fun _ _ => .reservedF) ∧
  (∀ s : State, exec .reservedE s = .next (answered s 8 0)) ∧
  (∀ s : State, exec .reservedF s = .next (answered s 8 0))

/-- Words of 95_test_vectors.md and of the rules' examples decode to the commands they stand for. -/
def Obligations.SampleWordsDecode : Prop :=
  decode 0x00303000#32 0 = .ok (.new 0 3 3) ∧
  decode 0x020FF000#32 0 = .ok (.new 0 (-1) 32) ∧
  decode 0x00502013#32 1 = .ok (.set 1 2 5 1) ∧
  decode 0x00001005#32 1 = .ok (.setrow 0 1 false 1) ∧
  decode 0x00300417#32 5 = .ok (.setcol 1 3 true 5) ∧
  decode 0x00000128#32 0 = .ok (.add 2 0 1) ∧
  decode 0x000003AA#32 0 = .ok (.mul 2 2 3) ∧
  decode 0x000FF00D#32 1 = .ok (.seqld (-1) 1) ∧
  decode 0xF000000B#32 0 = .error .reservedBits

/-! ### The step -/

/-- R58, R100: the edge that completes an accepted command runs exactly the command its word decodes to, on the state
whose input of this edge is consumed and whose edge is counted (logs 4 and 5). -/
def Obligations.StepRunsDecodedCommand : Prop :=
  ∀ (s : State) (i : Instr), Completing s → decode s.cmdReg s.dataReg = .ok i → i.wellFormed = true →
    step s = exec i { s with inputs := s.inputs.tail, edges := s.edges + 1 }

/-- R15, R220: no step stops; every edge has a next state. -/
def Obligations.EveryStepHasNextState : Prop :=
  ∀ s : State, ∃ t, step s = .next t

/-- R57: when the port offers a command, `cmd_ready` is 1 and `rst` is 0, the block samples word and DATA and moves from
IDLE to BUSY; with `cmd_valid` = 0 an IDLE block stays IDLE and changes nothing, and where `cmd_ready` = 0 no command is
accepted and what the host puts on the command port is ignored. That an IDLE block keeps slots, SEQ and
the response registers is R233's "all state is retained", which for the response registers after a response has been
taken the model reads as log 10 says. -/
def Obligations.AcceptanceSamplesCommand : Prop :=
  (∀ s : State, s.pins.rst = false → s.pins.cmdValid = true → s.ports.cmdReady = true →
    s.phase = .idle ∧
    ∃ t, step s = .next t ∧ t.phase = .busy ∧ t.cmdReg = s.pins.cmdWord ∧ t.dataReg = s.pins.cmdData ∧
      t.slots = s.slots ∧ t.seq = s.seq) ∧
  (∀ s : State, s.pins.rst = false → s.pins.cmdValid = false → s.phase = .idle →
    ∃ t, step s = .next t ∧ t.phase = .idle ∧ t.slots = s.slots ∧ t.seq = s.seq ∧
      t.rspStatus = s.rspStatus ∧ t.rspResult = s.rspResult) ∧
  (∀ s t : State, s.ports.cmdReady = false → step s = .next t → t.phase = .busy → s.phase = .busy) ∧
  (∀ (s : State) (p : Pins) (rest : List Pins) (v : Bool) (w : CmdWord) (d : Word),
    s.ports.cmdReady = false → s.inputs = p :: rest →
    step s = step { s with inputs := { p with cmdValid := v, cmdWord := w, cmdData := d } :: rest })

/-- R58, R62, R259, R262: a command accepted by an IDLE block completes `LAT` edges after its acceptance, whatever the host
does on the command port meanwhile; until then the block is BUSY and no slot and no entry of SEQ changes. That the latency is
one unknown function of word, DATA, slots and SEQ, drawn at the acceptance, is the model's choice (log 6); `inputs` and
`edges` are the model's own fields (logs 4 and 5). -/
def Obligations.CommandCompletesAfterLatency : Prop :=
  ∀ (s : State) (p : Pins) (rest : List Pins), s.phase = .idle → s.inputs = p :: rest →
    p.rst = false → p.cmdValid = true →
    let lat := Config.latency p.cmdWord p.cmdData s.slots s.seq
    (∀ q ∈ rest.take lat, q.rst = false) →
    (∀ n, 1 ≤ n → n ≤ lat → ∃ u, runEdges n s = .next u ∧ u.phase = .busy ∧ u.slots = s.slots ∧ u.seq = s.seq) ∧
    runEdges (1 + lat) s =
      runCommand p.cmdWord p.cmdData
        { s with phase := .busy, cmdReg := p.cmdWord, dataReg := p.cmdData, wait := 0,
                 inputs := rest.drop lat, edges := s.edges + (1 + lat) }

/-- R58: the response stays presented until the edge at which `rsp_ready` is 1, and that edge returns the block to IDLE;
neither changes anything else. -/
def Obligations.ResponseTakenReturnsToIdle : Prop :=
  ∀ s : State, s.phase = .resp → s.pins.rst = false →
    (s.pins.rspReady = true →
      step s = .next { s with phase := .idle, inputs := s.inputs.tail, edges := s.edges + 1 }) ∧
    (s.pins.rspReady = false → step s = .next { s with inputs := s.inputs.tail, edges := s.edges + 1 })

/-- R260: as long as the host does not take the response, however many edges that lasts, the block stays in RESP: no
further command is accepted, no slot, no entry of SEQ and nothing of the response changes, and no step stops. -/
def Obligations.UntakenResponseBlocksForever : Prop :=
  ∀ (n : Nat) (s : State), s.phase = .resp → n ≤ s.inputs.length →
    (∀ p ∈ s.inputs.take n, p.rst = false ∧ p.rspReady = false) →
    ∃ t, runEdges n s = .next t ∧ t.phase = .resp ∧ t.ports.cmdReady = false ∧ t.slots = s.slots ∧ t.seq = s.seq ∧
      t.rspStatus = s.rspStatus ∧ t.rspResult = s.rspResult

/-- R55, R58, R59: while `rst` is 0, `cmd_ready` is 1 exactly when the phase is IDLE, `rsp_valid` exactly when it is RESP,
and then the response outputs show the held response. That this holds before the first reset too, where R253 leaves the
handshake outputs open, is the model's choice (log 21). -/
def Obligations.PortsFollowPhase : Prop :=
  ∀ s : State, s.pins.rst = false →
    (s.ports.cmdReady = true ↔ s.phase = .idle) ∧ (s.ports.rspValid = true ↔ s.phase = .resp) ∧
    (s.phase = .resp → s.ports.rspStatus = s.rspStatus ∧ s.ports.rspResult = s.rspResult)

/-- R250, R252, R30: an edge with `rst` = 1 enters the reset state from any state, whatever its phase and whatever the
host does on the other ports: every slot empty, SEQ 0, IDLE, so that no response is presented for an abandoned command.
(The values R30 leaves unspecified are not stated.) -/
def Obligations.ResetEdgeEntersResetState : Prop :=
  ∀ s : State, s.pins.rst = true →
    ∃ t, step s = .next t ∧ (∀ k : SlotNum, t.slots[k].valid = false) ∧
      (∀ e, e < 64 → seqAt t.seq e = 0) ∧ t.phase = .idle ∧ t.ports.rspValid = false

/-- R251: while `rst` = 1, `cmd_ready` = 0 and `rsp_valid` = 0; at the first edge after it returns to 0 the phase is IDLE
and `cmd_ready` = 1. -/
def Obligations.ResetReleasesToReady : Prop :=
  ∀ s : State, s.pins.rst = true →
    s.ports.cmdReady = false ∧ s.ports.rspValid = false ∧
    ∀ t, step s = .next t → t.pins.rst = false → t.phase = .idle ∧ t.ports.cmdReady = true

/-- The reset state has the slot invariant and is ready for a command (R30). -/
def Obligations.ResetIsCanonicalAndReady : Prop :=
  SlotsCanonical State.reset ∧ (∀ k : SlotNum, State.reset.slots[k].valid = false) ∧ State.reset.ports.cmdReady = true

/-- R24: from any state whose valid slots are canonical, whatever the phase and the inputs, every edge gives such a
state. -/
def Obligations.StepKeepsSlotsCanonical : Prop :=
  ∀ s t : State, SlotsCanonical s → step s = .next t → SlotsCanonical t

/-- R62, R16: an edge changes slots and SEQ only by completing a command, and then exactly as `Exec` does, with `Exec`'s
response presented; a reset edge apart. -/
def Obligations.StepRefinesExec : Prop :=
  ∀ s t : State, step s = .next t → s.pins.rst = false →
    (Completing s ∧ ∃ u, runCommand s.cmdReg s.dataReg s = .next u ∧
      t.slots = u.slots ∧ t.seq = u.seq ∧ Answers t u.rspStatus u.rspResult) ∨
    (¬ Completing s ∧ t.slots = s.slots ∧ t.seq = s.seq ∧ t.rspStatus = s.rspStatus ∧ t.rspResult = s.rspResult)

/-- R62, R16: over any number of edges without reset, from any state, the slots and SEQ are what `Exec` alone makes of the
commands that completed, one after another in their order. -/
def Obligations.RunIsInOrderExecution : Prop :=
  ∀ (n : Nat) (s : State), (∀ p ∈ s.inputs.take n, p.rst = false) →
    ∃ t u, runEdges n s = .next t ∧ execWords (completed n s) s = .next u ∧ t.slots = u.slots ∧ t.seq = u.seq

/-! ### Statuses and frames, over all commands -/

/-- R223: a failing command writes no state: no slot field, no word and no SEQ entry changes, RESULT is 0, and only the
phase and the response advance. Of every command, and of every command word, those that do not decode among them. -/
def Obligations.FailedCommandWritesNothing : Prop :=
  (∀ (i : Instr) (s t : State), exec i s = .next t → t.rspStatus ≠ 0 → t = answered s t.rspStatus 0) ∧
  (∀ (w : CmdWord) (d : Word) (s t : State), runCommand w d s = .next t → t.rspStatus ≠ 0 →
    t = answered s t.rspStatus 0)

/-- R224: every command word gets exactly one response, whose STATUS is that of the first failing check in the stated
order: reserved bits, reserved opcode, SlotEmpty, InvalidDimension or IndexOutOfBounds, TypeNotIndexable, LengthMismatch,
InvalidValue or DimensionMismatch. No command fails both of the last two. -/
def Obligations.StatusIsFirstFailingCheck : Prop :=
  (∀ (w : CmdWord) (d : Word) (s : State), ∃ t, runCommand w d s = .next t ∧ t.phase = .resp ∧
    (w &&& 0xF0000800#32 ≠ 0#32 → t.rspStatus = 8) ∧
    (∀ i, w &&& 0xF0000800#32 = 0#32 → decode w d = .ok i → t.rspStatus = firstFailing s i)) ∧
  (∀ (i : Instr) (s : State), ¬ (valueBad s i = true ∧ shapeBad s i = true))

/-- R221, R223: every command ends in the phase RESP with a STATUS that the table lists, and RESULT 0 unless it is OK. -/
def Obligations.ResponsesAreLegal : Prop :=
  ∀ (w : CmdWord) (d : Word) (s : State), ∃ t, runCommand w d s = .next t ∧ t.phase = .resp ∧ LegalResponse t

/-- R23: a command that reads an empty slot as an operand, or modifies it in place, fails with SlotEmpty (7) and writes
nothing; a command that creates a matrix accepts an empty destination: its status is the same whatever the destination
holds, unless the destination is also an operand. -/
def Obligations.EmptySlotsFailOperandsNotDestinations : Prop :=
  (∀ (i : Instr) (s : State) (k : SlotNum), k ∈ operandSlots i → s.slots[k].valid = false →
    exec i s = .next (answered s 7 0)) ∧
  (∀ (i : Instr) (s : State) (k : SlotNum) (m : Slot), createdSlot i = some k → k ∉ operandSlots i →
    ∃ t u, exec i s = .next t ∧ exec i { s with slots := s.slots.set k m } = .next u ∧
      t.rspStatus = u.rspStatus ∧ t.rspResult = u.rspResult)

/-- R20, R27, R60: a command changes no slot but the one it is to write, no entry of SEQ unless it is SEQLD, and nothing of
the channel but the phase and the response. -/
def Obligations.CommandsWriteOnlyTheirDestination : Prop :=
  ∀ (i : Instr) (s : State), ∃ t, exec i s = .next t ∧ KeepsChannel s t ∧
    (∀ k : SlotNum, writtenSlot i ≠ some k → t.slots[k] = s.slots[k]) ∧
    ((∀ k d, i ≠ .seqld k d) → t.seq = s.seq)

/-- R26: `valid`, `rows` and `cols` of a slot change only when NEW, NEWDEF, ADD, SUB or MUL writes it as a destination, or
on reset; RANK, GET, GETROW, GETCOL and SIZE write no slot field. -/
def Obligations.ShapesChangeOnlyByCreation : Prop :=
  (∀ (s t : State) (k : SlotNum), step s = .next t → ¬ SameShape t.slots[k] s.slots[k] →
    s.pins.rst = true ∨
    (Completing s ∧ ∃ i, decode s.cmdReg s.dataReg = .ok i ∧ createdSlot i = some k)) ∧
  (∀ (i : Instr) (s : State), readsOnly i = true → ∃ t, exec i s = .next t ∧ t.slots = s.slots)

/-- R27: SEQ changes only when SEQLD completes, or on reset. -/
def Obligations.SeqChangesOnlyBySeqld : Prop :=
  ∀ s t : State, step s = .next t → t.seq ≠ s.seq →
    s.pins.rst = true ∨ (Completing s ∧ ∃ k d, decode s.cmdReg s.dataReg = .ok (.seqld k d))

/-- R64: GET, GETROW, GETCOL, SIZE and RANK change no state except the channel's phase and response, and repeating one
gives the same response; every command's response and writes are a function of the slots, SEQ, the word and DATA. -/
def Obligations.ReadsHaveNoSideEffect : Prop :=
  (∀ (i : Instr) (s : State), readsOnly i = true →
    ∃ t, exec i s = .next t ∧ t = answered s t.rspStatus t.rspResult ∧ exec i t = .next t) ∧
  (∀ (w : CmdWord) (d : Word) (s s' : State), s.slots = s'.slots → s.seq = s'.seq →
    ∃ t t', runCommand w d s = .next t ∧ runCommand w d s' = .next t' ∧ t.slots = t'.slots ∧ t.seq = t'.seq ∧
      t.rspStatus = t'.rspStatus ∧ t.rspResult = t'.rspResult)

/-- R30, R23: no command can observe `rows`, `cols` or the words of an empty slot. Two states that differ in nothing else
get the same response from every command word, and still differ in nothing else after it. -/
def Obligations.EmptySlotContentsUnobservable : Prop :=
  ∀ (w : CmdWord) (d : Word) (s s' : State), SameVisible s s' →
    ∃ t t', runCommand w d s = .next t ∧ runCommand w d s' = .next t' ∧
      t.rspStatus = t'.rspStatus ∧ t.rspResult = t'.rspResult ∧ SameVisible t t'

/-! ### Construction and size -/

/-- R110: NEW. -/
def Obligations.NewMakesZeroMatrix : Prop :=
  Selects 0x0#32 (fun w _ => .new (slotBits w 4) (signedBits w 12) (signedBits w 20)) ∧
  ∀ (md : SlotNum) (r c : Int) (s : State),
    (r < 1 ∨ 64 < r ∨ c < 1 ∨ 64 < c → exec (.new md r c) s = .next (answered s 1 0)) ∧
    (1 ≤ r → r ≤ 64 → 1 ≤ c → c ≤ 64 →
      ∃ t, exec (.new md r c) s = .next t ∧ Answers t 0 0 ∧ WritesOnlySlot md s t ∧
        t.slots[md].valid = true ∧ (t.slots[md].rows.toNat : Int) = r ∧ (t.slots[md].cols.toNat : Int) = c ∧
        ∀ k, k < 64 → t.slots[md].word k = 0)

/-- R113, R114: NEWDEF never fails and has the effect of NEW md, 64, 64. -/
def Obligations.NewdefMakesFullZeroMatrix : Prop :=
  Selects 0x1#32 (fun w _ => .newdef (slotBits w 4)) ∧
  ∀ (md : SlotNum) (s : State),
    (∃ t, exec (.newdef md) s = .next t ∧ Answers t 0 0 ∧ WritesOnlySlot md s t ∧
      t.slots[md].valid = true ∧ t.slots[md].rows.toNat = 64 ∧ t.slots[md].cols.toNat = 64 ∧
      ∀ k, k < 64 → t.slots[md].word k = 0) ∧
    exec (.newdef md) s = exec (.new md 64 64) s

/-- R116, R117: SIZE. -/
def Obligations.SizeReportsShape : Prop :=
  Selects 0xC#32 (fun w _ => .size (slotBits w 6)) ∧
  ∀ (ma : SlotNum) (s : State),
    (s.slots[ma].valid = false → exec (.size ma) s = .next (answered s 7 0)) ∧
    (s.slots[ma].valid = true → ∃ res : Word, exec (.size ma) s = .next (answered s 0 res) ∧
      res.toNat % 256 = s.slots[ma].rows.toNat ∧ res.toNat / 256 % 256 = s.slots[ma].cols.toNat ∧
      res.toNat / 65536 = 0)

/-- R115: a freshly constructed matrix, by NEW or by NEWDEF, has every entry and every padding bit 0, rank 0, and the size
it was given. -/
def Obligations.FreshMatrixHasRankZero : Prop :=
  (∀ (md : SlotNum) (r c : Int) (s : State), 1 ≤ r → r ≤ 64 → 1 ≤ c → c ≤ 64 →
    ∃ t, exec (.new md r c) s = .next t ∧ (∀ i j, entry t.slots[md] i j = false) ∧
      exec (.rank md) t = .next (answered t 0 0) ∧
      exec (.size md) t = .next (answered t 0 (BitVec.ofInt 64 (c * 256 + r)))) ∧
  (∀ (md : SlotNum) (s : State), ∃ t, exec (.newdef md) s = .next t ∧ (∀ i j, entry t.slots[md] i j = false) ∧
    exec (.rank md) t = .next (answered t 0 0) ∧ exec (.size md) t = .next (answered t 0 0x4040))

/-! ### Elements -/

/-- R133: GET. -/
def Obligations.GetReadsEntry : Prop :=
  Selects 0x2#32 (fun w _ => .get (slotBits w 6) (signedBits w 12) (signedBits w 20)) ∧
  ∀ (ma : SlotNum) (i j : Int) (s : State),
    (s.slots[ma].valid = false → exec (.get ma i j) s = .next (answered s 7 0)) ∧
    (s.slots[ma].valid = true → ¬ (RowIn s.slots[ma] i ∧ ColIn s.slots[ma] j) →
      exec (.get ma i j) s = .next (answered s 2 0)) ∧
    (s.slots[ma].valid = true → RowIn s.slots[ma] i → ColIn s.slots[ma] j →
      exec (.get ma i j) s =
        .next (answered s 0 (if entry s.slots[ma] i.toNat j.toNat = true then 1 else 0)))

/-- R134: SET. -/
def Obligations.SetWritesOneEntry : Prop :=
  Selects 0x3#32 (fun w d => .set (slotBits w 4) (signedBits w 12) (signedBits w 20) d) ∧
  ∀ (md : SlotNum) (i j : Int) (v : Word) (s : State), SlotsCanonical s →
    (s.slots[md].valid = false → exec (.set md i j v) s = .next (answered s 7 0)) ∧
    (s.slots[md].valid = true → ¬ (RowIn s.slots[md] i ∧ ColIn s.slots[md] j) →
      exec (.set md i j v) s = .next (answered s 2 0)) ∧
    (s.slots[md].valid = true → RowIn s.slots[md] i → ColIn s.slots[md] j → v ≠ 0 → v ≠ 1 →
      exec (.set md i j v) s = .next (answered s 3 0)) ∧
    (s.slots[md].valid = true → RowIn s.slots[md] i → ColIn s.slots[md] j → v = 0 ∨ v = 1 →
      ∃ t, exec (.set md i j v) s = .next t ∧ Answers t 0 0 ∧ WritesOnlySlot md s t ∧
        SameShape t.slots[md] s.slots[md] ∧
        ∀ i' j' : Nat, i' < 64 → j' < 64 →
          entry t.slots[md] i' j' =
            if (i' : Int) = i ∧ (j' : Int) = j then decide (v = 1) else entry s.slots[md] i' j')

/-- R135: after a successful SET, GET of the same entry returns the value, and every other entry of the slot is
unchanged. -/
def Obligations.SetThenGetReturnsValue : Prop :=
  ∀ (md : SlotNum) (i j : Int) (v : Word) (s t : State), SlotsCanonical s →
    exec (.set md i j v) s = .next t → t.rspStatus = 0 →
    exec (.get md i j) t = .next (answered t 0 v) ∧
    ∀ i' j' : Nat, i' < 64 → j' < 64 → ¬ ((i' : Int) = i ∧ (j' : Int) = j) →
      entry t.slots[md] i' j' = entry s.slots[md] i' j'

/-! ### Rows, columns and the sequence buffer -/

/-- R155: GETROW. -/
def Obligations.GetrowReadsRowWord : Prop :=
  Selects 0x4#32 (fun w _ => .getrow (slotBits w 6) (signedBits w 12)) ∧
  ∀ (ma : SlotNum) (i : Int) (s : State), SlotsCanonical s →
    (s.slots[ma].valid = false → exec (.getrow ma i) s = .next (answered s 7 0)) ∧
    (s.slots[ma].valid = true → ¬ RowIn s.slots[ma] i → exec (.getrow ma i) s = .next (answered s 2 0)) ∧
    (s.slots[ma].valid = true → RowIn s.slots[ma] i →
      exec (.getrow ma i) s = .next (answered s 0 (s.slots[ma].word i.toNat)) ∧
      ∀ j, s.slots[ma].cols.toNat ≤ j → (s.slots[ma].word i.toNat).getLsbD j = false)

/-- R158: SETROW. -/
def Obligations.SetrowReplacesRow : Prop :=
  Selects 0x5#32 (fun w d => .setrow (slotBits w 4) (signedBits w 12) (w.getLsbD 10) d) ∧
  ∀ (md : SlotNum) (i : Int) (q : Bool) (d : Word) (s : State), SlotsCanonical s →
    (s.slots[md].valid = false → exec (.setrow md i q d) s = .next (answered s 7 0)) ∧
    (s.slots[md].valid = true → ¬ RowIn s.slots[md] i → exec (.setrow md i q d) s = .next (answered s 2 0)) ∧
    (s.slots[md].valid = true → RowIn s.slots[md] i → q = false →
      exec (.setrow md i q d) s = .next (answered s 5 0)) ∧
    (s.slots[md].valid = true → RowIn s.slots[md] i → q = true → d.toNat ≠ s.slots[md].cols.toNat →
      exec (.setrow md i q d) s = .next (answered s 4 0)) ∧
    (s.slots[md].valid = true → RowIn s.slots[md] i → q = true → d.toNat = s.slots[md].cols.toNat →
      ¬ Binary s s.slots[md].cols.toNat → exec (.setrow md i q d) s = .next (answered s 3 0)) ∧
    (s.slots[md].valid = true → RowIn s.slots[md] i → q = true → d.toNat = s.slots[md].cols.toNat →
      Binary s s.slots[md].cols.toNat →
      ∃ t, exec (.setrow md i q d) s = .next t ∧ Answers t 0 0 ∧ WritesOnlySlot md s t ∧
        SameShape t.slots[md] s.slots[md] ∧
        ∀ i' j' : Nat, i' < 64 → j' < 64 →
          entry t.slots[md] i' j' =
            if (i' : Int) = i then decide (j' < s.slots[md].cols.toNat ∧ seqAt s.seq j' = 1)
            else entry s.slots[md] i' j')

/-- R161: GETCOL. -/
def Obligations.GetcolReadsColumnWord : Prop :=
  Selects 0x6#32 (fun w _ => .getcol (slotBits w 6) (signedBits w 20)) ∧
  ∀ (ma : SlotNum) (j : Int) (s : State), SlotsCanonical s →
    (s.slots[ma].valid = false → exec (.getcol ma j) s = .next (answered s 7 0)) ∧
    (s.slots[ma].valid = true → ¬ ColIn s.slots[ma] j → exec (.getcol ma j) s = .next (answered s 2 0)) ∧
    (s.slots[ma].valid = true → ColIn s.slots[ma] j →
      ∃ res : Word, exec (.getcol ma j) s = .next (answered s 0 res) ∧
        ∀ i, i < 64 → res.getLsbD i = (decide (i < s.slots[ma].rows.toNat) && entry s.slots[ma] i j.toNat))

/-- R164: SETCOL. -/
def Obligations.SetcolReplacesColumn : Prop :=
  Selects 0x7#32 (fun w d => .setcol (slotBits w 4) (signedBits w 20) (w.getLsbD 10) d) ∧
  ∀ (md : SlotNum) (j : Int) (q : Bool) (d : Word) (s : State), SlotsCanonical s →
    (s.slots[md].valid = false → exec (.setcol md j q d) s = .next (answered s 7 0)) ∧
    (s.slots[md].valid = true → ¬ ColIn s.slots[md] j → exec (.setcol md j q d) s = .next (answered s 2 0)) ∧
    (s.slots[md].valid = true → ColIn s.slots[md] j → q = false →
      exec (.setcol md j q d) s = .next (answered s 5 0)) ∧
    (s.slots[md].valid = true → ColIn s.slots[md] j → q = true → d.toNat ≠ s.slots[md].rows.toNat →
      exec (.setcol md j q d) s = .next (answered s 4 0)) ∧
    (s.slots[md].valid = true → ColIn s.slots[md] j → q = true → d.toNat = s.slots[md].rows.toNat →
      ¬ Binary s s.slots[md].rows.toNat → exec (.setcol md j q d) s = .next (answered s 3 0)) ∧
    (s.slots[md].valid = true → ColIn s.slots[md] j → q = true → d.toNat = s.slots[md].rows.toNat →
      Binary s s.slots[md].rows.toNat →
      ∃ t, exec (.setcol md j q d) s = .next t ∧ Answers t 0 0 ∧ WritesOnlySlot md s t ∧
        SameShape t.slots[md] s.slots[md] ∧
        ∀ i' j' : Nat, i' < 64 → j' < 64 →
          entry t.slots[md] i' j' =
            if (j' : Int) = j ∧ i' < s.slots[md].rows.toNat then decide (seqAt s.seq i' = 1)
            else entry s.slots[md] i' j')

/-- R168, R54: SEQLD; byte lane `e` of DATA goes to `SEQ[8k+e]`. -/
def Obligations.SeqldLoadsOctet : Prop :=
  Selects 0xD#32 (fun w d => .seqld (signedBits w 12) d) ∧
  ∀ (k : Int) (d : Word) (s : State),
    (k < 0 ∨ 7 < k → exec (.seqld k d) s = .next (answered s 2 0)) ∧
    (0 ≤ k → k ≤ 7 → ∃ t, exec (.seqld k d) s = .next t ∧ Answers t 0 0 ∧ t.slots = s.slots ∧ KeepsChannel s t ∧
      (∀ e : Nat, e < 8 → (seqAt t.seq (8 * k.toNat + e)).toNat = d.toNat / 2 ^ (8 * e) % 256) ∧
      (∀ e : Nat, e < 64 → (e < 8 * k.toNat ∨ 8 * k.toNat + 8 ≤ e) → seqAt t.seq e = seqAt s.seq e))

/-- R170: after a successful SETROW, GETROW of the row returns the word whose bit `e` is element `e`; after a successful
SETCOL, GETCOL of the column returns the word whose bit `i` is element `i`. -/
def Obligations.RowAndColumnRoundTrips : Prop :=
  (∀ (md : SlotNum) (i : Int) (d : Word) (s t : State), SlotsCanonical s →
    exec (.setrow md i true d) s = .next t → t.rspStatus = 0 →
    ∃ res : Word, exec (.getrow md i) t = .next (answered t 0 res) ∧
      ∀ e, e < 64 → res.getLsbD e = decide (e < s.slots[md].cols.toNat ∧ seqAt s.seq e = 1)) ∧
  (∀ (md : SlotNum) (j : Int) (d : Word) (s t : State), SlotsCanonical s →
    exec (.setcol md j true d) s = .next t → t.rspStatus = 0 →
    ∃ res : Word, exec (.getcol md j) t = .next (answered t 0 res) ∧
      ∀ e, e < 64 → res.getLsbD e = decide (e < s.slots[md].rows.toNat ∧ seqAt s.seq e = 1))

/-- R153, U10: SETROW reads only the first `cols` elements of SEQ and SETCOL only the first `rows`: what lies beyond
changes neither the response nor the slots. -/
def Obligations.ElementsBeyondLengthUnread : Prop :=
  ∀ (md : SlotNum) (v : Int) (q : Bool) (d : Word) (s : State) (seq' : Vector Byte 64),
    ((∀ e, e < s.slots[md].cols.toNat → seqAt seq' e = seqAt s.seq e) →
      ∃ t, exec (.setrow md v q d) s = .next t ∧
        exec (.setrow md v q d) { s with seq := seq' } = .next { t with seq := seq' }) ∧
    ((∀ e, e < s.slots[md].rows.toNat → seqAt seq' e = seqAt s.seq e) →
      ∃ t, exec (.setcol md v q d) s = .next t ∧
        exec (.setcol md v q d) { s with seq := seq' } = .next { t with seq := seq' })

/-- R92: LDSEQ leaves element `e` in `SEQ[e]`, 0 in the rest of its last octet, and every later entry as it was. -/
def Obligations.LdseqLoadsSequence : Prop :=
  ∀ (es : List Byte) (s : State), sequenceOk es →
    ∃ t, execAll (ldseq es) s = .next t ∧ Answers t 0 0 ∧ t.slots = s.slots ∧
      ∀ e, e < 64 → seqAt t.seq e =
        if e < es.length then es.getD e 0 else if e < 8 * ((es.length + 7) / 8) then 0 else seqAt s.seq e

/-- R92, R170: SETROWV with as many binary elements as the matrix has columns, then GETROW, returns the elements; SETCOLV
and GETCOL likewise. -/
def Obligations.SequenceWritesReadBack : Prop :=
  ∀ (md : SlotNum) (v : Int) (es : List Byte) (s : State), SlotsCanonical s → s.slots[md].valid = true →
    (∀ b ∈ es, b = 0 ∨ b = 1) →
    (RowIn s.slots[md] v → es.length = s.slots[md].cols.toNat →
      ∃ t res, execAll (setrowv md v es) s = .next t ∧ exec (.getrow md v) t = .next (answered t 0 res) ∧
        ∀ e, e < 64 → res.getLsbD e = decide (es[e]? = some 1)) ∧
    (ColIn s.slots[md] v → es.length = s.slots[md].rows.toNat →
      ∃ t res, execAll (setcolv md v es) s = .next t ∧ exec (.getcol md v) t = .next (answered t 0 res) ∧
        ∀ e, e < 64 → res.getLsbD e = decide (es[e]? = some 1))

/-! ### Arithmetic -/

/-- R182: ADD. -/
def Obligations.AddXorsEntries : Prop :=
  Selects 0x8#32 (fun w _ => .add (slotBits w 4) (slotBits w 6) (slotBits w 8)) ∧
  ∀ (md ma mb : SlotNum) (s : State),
    (s.slots[ma].valid = false ∨ s.slots[mb].valid = false → exec (.add md ma mb) s = .next (answered s 7 0)) ∧
    (s.slots[ma].valid = true → s.slots[mb].valid = true →
      s.slots[ma].rows ≠ s.slots[mb].rows ∨ s.slots[ma].cols ≠ s.slots[mb].cols →
      exec (.add md ma mb) s = .next (answered s 6 0)) ∧
    (s.slots[ma].valid = true → s.slots[mb].valid = true →
      s.slots[ma].rows = s.slots[mb].rows → s.slots[ma].cols = s.slots[mb].cols →
      ∃ t, exec (.add md ma mb) s = .next t ∧ Answers t 0 0 ∧ WritesOnlySlot md s t ∧
        SameShape t.slots[md] s.slots[ma] ∧
        ∀ i j : Nat, i < 64 → j < 64 →
          entry t.slots[md] i j = (entry s.slots[ma] i j != entry s.slots[mb] i j))

/-- R184: SUB is ADD in every respect but its opcode; it completes where ADD does, with the entries' difference over
GF(2). -/
def Obligations.SubEqualsAdd : Prop :=
  Selects 0x9#32 (fun w _ => .sub (slotBits w 4) (slotBits w 6) (slotBits w 8)) ∧
  ∀ (md ma mb : SlotNum) (s : State),
    exec (.sub md ma mb) s = exec (.add md ma mb) s ∧
    (s.slots[ma].valid = true → s.slots[mb].valid = true →
      s.slots[ma].rows = s.slots[mb].rows → s.slots[ma].cols = s.slots[mb].cols →
      ∃ t, exec (.sub md ma mb) s = .next t ∧ Answers t 0 0 ∧ WritesOnlySlot md s t ∧
        SameShape t.slots[md] s.slots[ma] ∧
        ∀ r c : Nat, r ≤ 64 → c ≤ 64 →
          toMatrix t.slots[md] r c = toMatrix s.slots[ma] r c - toMatrix s.slots[mb] r c)

/-- R188: ADD is commutative, self-inverse (the zero matrix of the shape), and equal to SUB. -/
def Obligations.AddLawsHold : Prop :=
  (∀ (md ma mb : SlotNum) (s : State), exec (.add md ma mb) s = exec (.add md mb ma) s) ∧
  (∀ (md ma : SlotNum) (s : State), s.slots[ma].valid = true →
    ∃ t, exec (.add md ma ma) s = .next t ∧ t.rspStatus = 0 ∧ SameShape t.slots[md] s.slots[ma] ∧
      ∀ k, k < 64 → t.slots[md].word k = 0) ∧
  (∀ (md ma mb : SlotNum) (s : State), exec (.sub md ma mb) s = exec (.add md ma mb) s)

/-- R186: MUL; each entry is the parity of the AND of a row of the left operand and a column of the right one. -/
def Obligations.MulTakesRowColumnParities : Prop :=
  Selects 0xA#32 (fun w _ => .mul (slotBits w 4) (slotBits w 6) (slotBits w 8)) ∧
  ∀ (md ma mb : SlotNum) (s : State), SlotsCanonical s →
    (s.slots[ma].valid = false ∨ s.slots[mb].valid = false → exec (.mul md ma mb) s = .next (answered s 7 0)) ∧
    (s.slots[ma].valid = true → s.slots[mb].valid = true → s.slots[ma].cols ≠ s.slots[mb].rows →
      exec (.mul md ma mb) s = .next (answered s 6 0)) ∧
    (s.slots[ma].valid = true → s.slots[mb].valid = true → s.slots[ma].cols = s.slots[mb].rows →
      ∃ t, exec (.mul md ma mb) s = .next t ∧ Answers t 0 0 ∧ WritesOnlySlot md s t ∧
        t.slots[md].valid = true ∧ t.slots[md].rows = s.slots[ma].rows ∧ t.slots[md].cols = s.slots[mb].cols ∧
        ∀ i j : Nat, i < 64 → j < 64 →
          entry t.slots[md] i j =
            decide (i < s.slots[ma].rows.toNat ∧ j < s.slots[mb].cols.toNat ∧
              ((List.range 64).countP fun x =>
                entry s.slots[ma] i x && decide (x < s.slots[mb].rows.toNat) && entry s.slots[mb] x j) % 2 = 1))

/-- R189: the slot MUL writes is the product of the operands' matrices over GF(2). -/
def Obligations.MulIsMatrixProduct : Prop :=
  ∀ (md ma mb : SlotNum) (s : State), SlotsCanonical s →
    s.slots[ma].valid = true → s.slots[mb].valid = true → s.slots[ma].cols = s.slots[mb].rows →
    ∃ t, exec (.mul md ma mb) s = .next t ∧ t.rspStatus = 0 ∧
      toMatrix t.slots[md] s.slots[ma].rows.toNat s.slots[mb].cols.toNat =
        toMatrix s.slots[ma] s.slots[ma].rows.toNat s.slots[ma].cols.toNat *
          toMatrix s.slots[mb] s.slots[ma].cols.toNat s.slots[mb].cols.toNat

/-- R14: two valid slots that are canonical have the same shape and the same entries exactly when their `rows`, `cols` and
all 64 words are equal, that is when they are equal. -/
def Obligations.MatrixEqualityIsSlotEquality : Prop :=
  ∀ a b : Slot, a.valid = true → b.valid = true → a.canonical → b.canonical →
    ((a.rows = b.rows ∧ a.cols = b.cols ∧
      ∀ i j, i < a.rows.toNat → j < a.cols.toNat → entry a i j = entry b i j) ↔ a = b)

/-! ### Rank -/

/-- R200, R206: RANK answers with the engine's pivot count, which is at most the smaller dimension and 0 for a zero matrix,
and writes no slot. -/
def Obligations.RankAnswersEngineCount : Prop :=
  Selects 0xB#32 (fun w _ => .rank (slotBits w 6)) ∧
  ∀ (ma : SlotNum) (s : State),
    (s.slots[ma].valid = false → exec (.rank ma) s = .next (answered s 7 0)) ∧
    (s.slots[ma].valid = true → ∃ res : Word, exec (.rank ma) s = .next (answered s 0 res) ∧
      res.toNat = rankEng s.slots[ma] ∧
      res.toNat ≤ s.slots[ma].rows.toNat ∧ res.toNat ≤ s.slots[ma].cols.toNat ∧
      ((∀ k, k < 64 → s.slots[ma].word k = 0) → res = 0))

/-- R207: the rank of a permuted identity of order `n` is `n`. -/
def Obligations.PermutedIdentityHasFullRank : Prop :=
  ∀ (m : Slot) (n : Nat) (f : Nat → Nat), m.canonical → m.rows.toNat = n → m.cols.toNat = n →
    (∀ i, i < n → f i < n ∧ m.word i = 1#64 <<< f i) → (∀ i j, i < n → j < n → f i = f j → i = j) →
    rankEng m = n

/-- R204: the elimination step clears bit `c` of every row but the pivot row, leaves the pivot row as it is, and gives the
same words in whatever order its rows are written. -/
def Obligations.EliminationOrderIsIrrelevant : Prop :=
  ∀ (W : Vector Word 64) (c p n : Nat), n ≤ 64 → p < n → (rowAt W p).getLsbD c = true →
    (∀ q, q < n → q ≠ p → (rowAt (eliminate W c p n) q).getLsbD c = false) ∧
    rowAt (eliminate W c p n) p = rowAt W p ∧
    ∀ order : List Nat, order.Nodup → (∀ q, q ∈ order ↔ q < n) →
      order.foldl (eliminateRow c p) W = eliminate W c p n

/-- R205: stopping early never changes the result. -/
def Obligations.EarlyTerminationIsNeutral : Prop :=
  ∀ m : Slot, rankFromAll m.rows.toNat m.cols.toNat 0 m.w 0 = rankEng m

/-- R208, R13: the engine's count is the rank of the slot's matrix over GF(2): the number of linearly independent rows. -/
def Obligations.RankEngineComputesMatrixRank : Prop :=
  ∀ m : Slot, m.canonical →
    rankEng m = (toMatrix m m.rows.toNat m.cols.toNat).rank
end

