-- ==== Sys2Proof/Laws/Bits.lean ====
section
/-! SUPPORT. What each word primitive does, bit by bit. Later proofs cite these and do not unfold the primitives. -/

namespace Sys2Proof.Machine

@[simp] theorem getLsbD_lowMask (c k : Nat) : (lowMask c).getLsbD k = decide (k < 64 ∧ k < c) := by
  simp only [lowMask, BitVec.getLsbD_ofNat, Nat.testBit_two_pow_sub_one]
  by_cases h : k < 64 <;> simp [h]

theorem getLsbD_bitMask (k j : Nat) : (bitMask k).getLsbD j = decide (j < 64 ∧ j = k) := by
  simp only [bitMask, BitVec.getLsbD_xor, getLsbD_lowMask]
  by_cases h1 : j < 64 <;> by_cases h2 : j < k + 1 <;> by_cases h3 : j < k <;> by_cases h4 : j = k <;>
    simp [h1, h2, h3, h4] <;> omega

@[simp] theorem getLsbD_zextBit (b : Bool) (j : Nat) : (zextBit b).getLsbD j = (decide (j = 0) && b) := by
  cases j <;> simp [zextBit, BitVec.getLsbD_setWidth]

/-- The bit-extract unit reads bit `j`. -/
@[simp] theorem bext_eq_getLsbD (w : Word) (j : Nat) : bext w j = w.getLsbD j := by
  have h : (w >>> j) &&& 1#64 = zextBit (w.getLsbD j) := by
    apply BitVec.eq_of_getLsbD_eq
    intro k hk
    cases k with
    | zero => cases h : w.getLsbD j <;> simp [h, zextBit]
    | succ k => simp [BitVec.getLsbD_one]
  simp only [bext, h]
  cases w.getLsbD j <;> decide

/-- The bit-replace unit writes bit `j` and no other. -/
@[simp] theorem getLsbD_brep (w : Word) (j : Nat) (v : Bool) (k : Nat) (hk : k < 64) :
    (brep w j v).getLsbD k = if k = j then v else w.getLsbD k := by
  simp only [brep, BitVec.getLsbD_or, BitVec.getLsbD_and, BitVec.getLsbD_not, BitVec.getLsbD_shiftLeft,
    getLsbD_bitMask, getLsbD_zextBit, hk]
  by_cases h : k = j
  · subst h; simp
  · by_cases h2 : k < j
    · simp [h, h2]
    · have : k - j ≠ 0 := by omega
      simp [h, this]

@[simp] theorem getLsbD_rxor (a b : Word) (k : Nat) : (rxor a b).getLsbD k = (a.getLsbD k ^^ b.getLsbD k) := by
  simp [rxor]

/-- The OR over a range has a bit set exactly when a member has. -/
theorem getLsbD_orBelow (f : Nat → Word) (n k : Nat) :
    (orBelow f n).getLsbD k = (List.range n).any fun i => (f i).getLsbD k := by
  induction n with
  | zero => simp [orBelow]
  | succ n ih => simp [orBelow, ih, List.range_succ]

/-- A gathered word holds element `k` at bit `k`, and 0 past the last element. -/
@[simp] theorem getLsbD_gather (n : Nat) (b : Nat → Bool) (k : Nat) :
    (gather n b).getLsbD k = (decide (k < n ∧ k < 64) && b k) := by
  rw [gather, getLsbD_orBelow, Bool.eq_iff_iff]
  simp only [List.any_eq_true, List.mem_range, BitVec.getLsbD_shiftLeft, getLsbD_zextBit, Bool.and_eq_true,
    decide_eq_true_eq, Bool.not_eq_true', decide_eq_false_iff_not]
  constructor
  · rintro ⟨i, hi, ⟨hk, h1⟩, h2, hb⟩
    have : i = k := by omega
    subst this
    exact ⟨⟨hi, hk⟩, hb⟩
  · rintro ⟨⟨hn, hk⟩, hb⟩
    exact ⟨k, hn, ⟨hk, by omega⟩, by omega, hb⟩

theorem popcountBelow_eq_countP (w : Word) (n : Nat) :
    popcountBelow w n = (List.range n).countP fun x => w.getLsbD x := by
  induction n with
  | zero => rfl
  | succ n ih =>
    rw [popcountBelow, ih, List.range_succ, List.countP_append]
    cases h : w.getLsbD n <;> simp [h]

/-- `DOT` is the parity of the number of positions where both words have a 1. -/
theorem dot_eq_countP (r c : Word) :
    dot r c = ((List.range 64).countP (fun x => r.getLsbD x && c.getLsbD x) % 2 == 1) := by
  simp [dot, parity, popcount, popcountBelow_eq_countP]

end Sys2Proof.Machine
end

