-- ==== Sys2Proof/Laws/Decode.lean ====
section
/-! SUPPORT. Every field of a command word that the encoder builds, read back. -/

namespace Sys2Proof

section
variable (r : BitVec 4) (j i : BitVec 8) (z s : BitVec 1) (b a d : BitVec 2) (op : BitVec 4)

/-- The fields of R81, most significant first. -/
abbrev joined : CmdWord := r ++ j ++ i ++ z ++ s ++ b ++ a ++ d ++ op

theorem joined_op : (joined r j i z s b a d op).extractLsb' 0 4 = op := by
  ext k hk
  simp only [BitVec.getElem_extractLsb', BitVec.getLsbD_append]
  interval_cases k <;> simp

theorem joined_md : (joined r j i z s b a d op).extractLsb' 4 2 = d := by
  ext k hk
  simp only [BitVec.getElem_extractLsb', BitVec.getLsbD_append]
  interval_cases k <;> simp

theorem joined_ma : (joined r j i z s b a d op).extractLsb' 6 2 = a := by
  ext k hk
  simp only [BitVec.getElem_extractLsb', BitVec.getLsbD_append]
  interval_cases k <;> simp

theorem joined_mb : (joined r j i z s b a d op).extractLsb' 8 2 = b := by
  ext k hk
  simp only [BitVec.getElem_extractLsb', BitVec.getLsbD_append]
  interval_cases k <;> simp

theorem joined_s : (joined r j i z s b a d op).getLsbD 10 = s.getLsbD 0 := by
  simp only [BitVec.getLsbD_append]
  simp

theorem joined_z : (joined r j i z s b a d op).getLsbD 11 = z.getLsbD 0 := by
  simp only [BitVec.getLsbD_append]
  simp

theorem joined_i : (joined r j i z s b a d op).extractLsb' 12 8 = i := by
  ext k hk
  simp only [BitVec.getElem_extractLsb', BitVec.getLsbD_append]
  interval_cases k <;> simp

theorem joined_j : (joined r j i z s b a d op).extractLsb' 20 8 = j := by
  ext k hk
  simp only [BitVec.getElem_extractLsb', BitVec.getLsbD_append]
  interval_cases k <;> simp

theorem joined_r : (joined r j i z s b a d op).extractLsb' 28 4 = r := by
  ext k hk
  simp only [BitVec.getElem_extractLsb', BitVec.getLsbD_append]
  interval_cases k <;> simp

end

section
variable (op : BitVec 4) (md ma mb : SlotNum) (s : Bool) (i j : Int)

theorem commandWord_eq_joined : commandWord op md ma mb s i j =
    joined 0#4 (BitVec.ofInt 8 j) (BitVec.ofInt 8 i) 0#1 (BitVec.ofBool s) (BitVec.ofNat 2 mb.val)
      (BitVec.ofNat 2 ma.val) (BitVec.ofNat 2 md.val) op := rfl

@[simp] theorem opField_commandWord : opField (commandWord op md ma mb s i j) = op := joined_op ..

@[simp] theorem mdField_commandWord : mdField (commandWord op md ma mb s i j) = md := by
  rw [mdField, commandWord_eq_joined, joined_md]
  revert md; decide

@[simp] theorem maField_commandWord : maField (commandWord op md ma mb s i j) = ma := by
  rw [maField, commandWord_eq_joined, joined_ma]
  revert ma; decide

@[simp] theorem mbField_commandWord : mbField (commandWord op md ma mb s i j) = mb := by
  rw [mbField, commandWord_eq_joined, joined_mb]
  revert mb; decide

@[simp] theorem sField_commandWord : sField (commandWord op md ma mb s i j) = s := by
  rw [sField, commandWord_eq_joined, joined_s]
  cases s <;> rfl

theorem commandWord_reserved_clear : ¬ reservedBitSet (commandWord op md ma mb s i j) := by
  rw [reservedBitSet, commandWord_eq_joined, joined_r, joined_z]
  decide

/-- An integer with an encoding is read back from its 8 bits. -/
theorem s8_ofInt (v : Int) (h : fitsS8 v = true) : s8 (BitVec.ofInt 8 v) = v := by
  simp only [fitsS8, decide_eq_true_eq] at h
  rw [s8, BitVec.toInt_ofInt, Int.bmod_eq_of_le (by omega) (by omega)]

theorem iField_commandWord (h : fitsS8 i = true) : iField (commandWord op md ma mb s i j) = i := by
  rw [iField, commandWord_eq_joined, joined_i, s8_ofInt i h]

theorem jField_commandWord (h : fitsS8 j = true) : jField (commandWord op md ma mb s i j) = j := by
  rw [jField, commandWord_eq_joined, joined_j, s8_ofInt j h]

end

/-- A field read as `S8` has an encoding. -/
theorem fitsS8_s8 (f : BitVec 8) : fitsS8 (s8 f) = true := by
  have h1 := BitVec.le_toInt f
  have h2 := BitVec.toInt_lt (x := f)
  exact decide_eq_true ⟨by simpa [s8] using h1, by simp only [s8]; omega⟩

end Sys2Proof
end

