-- ==== Sys2Proof/Laws/State.lean ====
section
/-! SUPPORT. One lemma per field per update of State, and the reads of words and entries after an update. -/

namespace Sys2Proof.Machine

/-! ### respond -/
section
variable (s : State) (st : Status) (res : Word)
@[simp] theorem respond_slots : (s.respond st res).slots = s.slots := rfl
@[simp] theorem respond_seq : (s.respond st res).seq = s.seq := rfl
@[simp] theorem respond_phase : (s.respond st res).phase = .resp := rfl
@[simp] theorem respond_rspStatus : (s.respond st res).rspStatus = st.code := rfl
@[simp] theorem respond_rspResult : (s.respond st res).rspResult = res := rfl
@[simp] theorem respond_cmdReg : (s.respond st res).cmdReg = s.cmdReg := rfl
@[simp] theorem respond_dataReg : (s.respond st res).dataReg = s.dataReg := rfl
@[simp] theorem respond_wait : (s.respond st res).wait = s.wait := rfl
@[simp] theorem respond_inputs : (s.respond st res).inputs = s.inputs := rfl
@[simp] theorem respond_edges : (s.respond st res).edges = s.edges := rfl
end

/-! ### setSlot -/
section
variable (s : State) (k : SlotNum) (m : Slot)
@[simp] theorem setSlot_slots : (s.setSlot k m).slots = s.slots.set k m := rfl
@[simp] theorem setSlot_seq : (s.setSlot k m).seq = s.seq := rfl
@[simp] theorem setSlot_phase : (s.setSlot k m).phase = s.phase := rfl
@[simp] theorem setSlot_rspStatus : (s.setSlot k m).rspStatus = s.rspStatus := rfl
@[simp] theorem setSlot_rspResult : (s.setSlot k m).rspResult = s.rspResult := rfl
@[simp] theorem setSlot_cmdReg : (s.setSlot k m).cmdReg = s.cmdReg := rfl
@[simp] theorem setSlot_dataReg : (s.setSlot k m).dataReg = s.dataReg := rfl
@[simp] theorem setSlot_wait : (s.setSlot k m).wait = s.wait := rfl
@[simp] theorem setSlot_inputs : (s.setSlot k m).inputs = s.inputs := rfl
@[simp] theorem setSlot_edges : (s.setSlot k m).edges = s.edges := rfl
end

/-! ### advance -/
section
variable (s : State)
@[simp] theorem advance_slots : s.advance.slots = s.slots := rfl
@[simp] theorem advance_seq : s.advance.seq = s.seq := rfl
@[simp] theorem advance_phase : s.advance.phase = s.phase := rfl
@[simp] theorem advance_rspStatus : s.advance.rspStatus = s.rspStatus := rfl
@[simp] theorem advance_rspResult : s.advance.rspResult = s.rspResult := rfl
@[simp] theorem advance_cmdReg : s.advance.cmdReg = s.cmdReg := rfl
@[simp] theorem advance_dataReg : s.advance.dataReg = s.dataReg := rfl
@[simp] theorem advance_wait : s.advance.wait = s.wait := rfl
@[simp] theorem advance_inputs : s.advance.inputs = s.inputs.tail := rfl
@[simp] theorem advance_edges : s.advance.edges = s.edges + 1 := rfl
end

/-! ### accept -/
section
variable (s : State) (p : Pins)
@[simp] theorem accept_slots : (s.accept p).slots = s.slots := rfl
@[simp] theorem accept_seq : (s.accept p).seq = s.seq := rfl
@[simp] theorem accept_phase : (s.accept p).phase = .busy := rfl
@[simp] theorem accept_rspStatus : (s.accept p).rspStatus = s.rspStatus := rfl
@[simp] theorem accept_rspResult : (s.accept p).rspResult = s.rspResult := rfl
@[simp] theorem accept_cmdReg : (s.accept p).cmdReg = p.cmdWord := rfl
@[simp] theorem accept_dataReg : (s.accept p).dataReg = p.cmdData := rfl
@[simp] theorem accept_wait :
    (s.accept p).wait = Config.extraLatency p.cmdWord p.cmdData s.slots s.seq := rfl
@[simp] theorem accept_inputs : (s.accept p).inputs = s.inputs := rfl
@[simp] theorem accept_edges : (s.accept p).edges = s.edges := rfl
end

/-! ### resetEdge -/
section
variable (s : State)
@[simp] theorem resetEdge_slots : s.resetEdge.slots = Vector.replicate 4 Slot.afterReset := rfl
@[simp] theorem resetEdge_seq : s.resetEdge.seq = Vector.replicate 64 0 := rfl
@[simp] theorem resetEdge_phase : s.resetEdge.phase = .idle := rfl
@[simp] theorem resetEdge_rspStatus : s.resetEdge.rspStatus = 0 := rfl
@[simp] theorem resetEdge_rspResult : s.resetEdge.rspResult = 0 := rfl
@[simp] theorem resetEdge_cmdReg : s.resetEdge.cmdReg = 0 := rfl
@[simp] theorem resetEdge_dataReg : s.resetEdge.dataReg = 0 := rfl
@[simp] theorem resetEdge_wait : s.resetEdge.wait = 0 := rfl
@[simp] theorem resetEdge_inputs : s.resetEdge.inputs = s.inputs := rfl
@[simp] theorem resetEdge_edges : s.resetEdge.edges = s.edges := rfl
end

/-! ### Words of a vector -/

theorem rowAt_of_lt (w : Vector Word 64) (k : Nat) (h : k < 64) : rowAt w k = w[k] := by simp [rowAt, h]

theorem rowAt_of_ge (w : Vector Word 64) (k : Nat) (h : 64 ≤ k) : rowAt w k = 0 := by
  simp [rowAt, Nat.not_lt.mpr h]

theorem getElem_listFrom {α : Type} (f : Nat → α) (n k x : Nat) (h : x < (listFrom f n k).length) :
    (listFrom f n k)[x] = f (k + x) := by
  induction n generalizing k x with
  | zero => simp [listFrom] at h
  | succ n ih =>
    cases x with
    | zero => simp [listFrom]
    | succ x =>
      simp only [listFrom, List.getElem_cons_succ]
      rw [ih]
      congr 1
      omega

/-- A tabulated vector holds the function's values. -/
@[simp] theorem getElem_tabulate {α : Type} (n : Nat) (f : Nat → α) (x : Nat) (h : x < n) :
    (tabulate n f)[x] = f x := by
  have := getElem_listFrom f n 0 x (by rwa [length_listFrom])
  simpa [tabulate] using this

@[simp] theorem rowAt_tabulate (f : Nat → Word) (k : Nat) :
    rowAt (tabulate 64 f) k = if k < 64 then f k else 0 := by
  unfold rowAt; split <;> simp

@[simp] theorem rowAt_replicate_zero (k : Nat) : rowAt (Vector.replicate 64 0) k = 0 := by
  unfold rowAt; split <;> simp

/-- Two vectors of 64 words are equal when their words are. -/
theorem words_ext {a b : Vector Word 64} (h : ∀ k, k < 64 → rowAt a k = rowAt b k) : a = b := by
  apply Vector.ext
  intro k hk
  have := h k hk
  rwa [rowAt_of_lt a k hk, rowAt_of_lt b k hk] at this

theorem seqAt_of_lt (q : Vector Byte 64) (e : Nat) (h : e < 64) : seqAt q e = q[e] := by simp [seqAt, h]

@[simp] theorem seqAt_tabulate (f : Nat → Byte) (e : Nat) :
    seqAt (tabulate 64 f) e = if e < 64 then f e else 0 := by
  unfold seqAt; split <;> simp

@[simp] theorem seqAt_replicate_zero (e : Nat) : seqAt (Vector.replicate 64 0) e = 0 := by
  unfold seqAt; split <;> simp

end Sys2Proof.Machine
end

