-- ==== Sys2Proof/Laws/Ops.lean ====
section
/-! SUPPORT. For each shared operation, what it does, said once; and that every operation on a slot keeps the canonical
form. -/

namespace Sys2Proof.Machine

/-- Reading the slot file after a slot is written. -/
theorem slots_set_getElem (v : Vector Slot 4) (k j : SlotNum) (m : Slot) :
    (v.set k m)[j] = if j = k then m else v[j] := by
  simp only [Fin.getElem_fin, Vector.getElem_set, Fin.ext_iff]
  by_cases h : (k : Nat) = j <;> simp [h, eq_comm]

/-- Reading the slot file at a slot number is the named operation: rewrite with it before unfolding a meaning. -/
theorem slots_eq_slot (s : State) (k : SlotNum) : s.slots[k] = s.slot k := rfl

@[simp] theorem slot_setSlot_self (s : State) (k : SlotNum) (m : Slot) : (s.setSlot k m).slot k = m := by
  simp [State.slot, State.setSlot]

theorem slot_setSlot_ne (s : State) (k j : SlotNum) (m : Slot) (h : j ≠ k) :
    (s.setSlot k m).slot j = s.slot j := by
  simp only [State.slot, setSlot_slots, slots_set_getElem, h, if_false]

/-- What `fail` answers. -/
theorem fail_eq (st : Status) (s : State) : fail st s = .next (s.respond st 0) := rfl

/-- What `succeed` answers. -/
theorem succeed_eq (res : Word) (s : State) : succeed res s = .next (s.respond .ok res) := rfl

theorem word_of_ge (m : Slot) (k : Nat) (h : 64 ≤ k) : m.word k = 0 := rowAt_of_ge m.w k h

@[simp] theorem word_zero (r c : BitVec 7) (k : Nat) : (Slot.zero r c).word k = 0 := by
  simp only [Slot.word, Slot.zero]
  exact rowAt_replicate_zero k

/-- `setWord` writes one word of 64. -/
theorem word_setWord (m : Slot) (k : Nat) (v : Word) (x : Nat) :
    (m.setWord k v).word x = if x = k ∧ x < 64 then v else m.word x := by
  simp only [Slot.word, Slot.setWord, rowAt_tabulate]
  by_cases h : x < 64
  · simp [h]
  · simp [h, rowAt_of_ge m.w x (by omega)]

@[simp] theorem setWord_valid (m : Slot) (k : Nat) (v : Word) : (m.setWord k v).valid = m.valid := rfl
@[simp] theorem setWord_rows (m : Slot) (k : Nat) (v : Word) : (m.setWord k v).rows = m.rows := rfl
@[simp] theorem setWord_cols (m : Slot) (k : Nat) (v : Word) : (m.setWord k v).cols = m.cols := rfl

@[simp] theorem colSet_valid (q : Vector Byte 64) (m : Slot) (j : Nat) : (colSet q m j).valid = m.valid := rfl
@[simp] theorem colSet_rows (q : Vector Byte 64) (m : Slot) (j : Nat) : (colSet q m j).rows = m.rows := rfl
@[simp] theorem colSet_cols (q : Vector Byte 64) (m : Slot) (j : Nat) : (colSet q m j).cols = m.cols := rfl

/-- `colGet` holds entry `(i, j)` at bit `i`. -/
@[simp] theorem getLsbD_colGet (m : Slot) (j i : Nat) :
    (colGet m j).getLsbD i = (decide (i < m.rows.toNat ∧ i < 64) && (m.word i).getLsbD j) := by
  simp [colGet]

/-- `colSet` writes bit `j` of the words of the matrix's rows, and nothing else. -/
theorem getLsbD_word_colSet (q : Vector Byte 64) (m : Slot) (j i k : Nat) (hi : i < 64) (hk : k < 64) :
    ((colSet q m j).word i).getLsbD k =
      if i < m.rows.toNat ∧ k = j then (seqAt q i).getLsbD 0 else (m.word i).getLsbD k := by
  simp only [colSet, Slot.word, rowAt_tabulate, hi, if_true]
  by_cases h : i < m.rows.toNat
  · rw [if_pos h, getLsbD_brep _ _ _ _ hk]
    by_cases h' : k = j <;> simp only [h, h', and_self, and_false, if_true, if_false]
  · simp only [h, if_false, false_and]

/-- `seqPack` holds bit 0 of element `e` at bit `e`. -/
@[simp] theorem getLsbD_seqPack (q : Vector Byte 64) (n e : Nat) :
    (seqPack q n).getLsbD e = (decide (e < n ∧ e < 64) && (seqAt q e).getLsbD 0) := by
  simp [seqPack]

/-- `seqLoad` writes one octet of the buffer. -/
theorem seqAt_seqLoad (q : Vector Byte 64) (k : Nat) (d : Word) (e : Nat) (he : e < 64) :
    seqAt (seqLoad q k d) e = if e / 8 = k then byteLane d (e % 8) else seqAt q e := by
  simp only [seqLoad, seqAt_tabulate, he, if_true]

/-- Every word of a sum is the XOR of the operands' words. -/
@[simp] theorem word_xorSlots (a b : Slot) (k : Nat) : (xorSlots a b).word k = a.word k ^^^ b.word k := by
  simp only [Slot.word, xorSlots, rowAt_tabulate]
  by_cases h : k < 64
  · simp [h, rxor]
  · simp [h, rowAt_of_ge _ k (by omega)]

/-- An entry of a product is the parity of a row and a column. -/
theorem getLsbD_word_mulSlots (a b : Slot) (k j : Nat) (hk : k < 64) :
    ((mulSlots a b).word k).getLsbD j =
      (decide (k < a.rows.toNat) && decide (j < b.cols.toNat ∧ j < 64) && dot (a.word k) (colGet b j)) := by
  simp only [Slot.word, mulSlots, rowAt_tabulate, hk, if_true]
  by_cases h : k < a.rows.toNat <;> simp [h]

/-! ### The canonical form -/

/-- A word has no bit at or above `c` exactly when masking says so. -/
theorem padding_zero_iff (v : Word) (c : Nat) :
    v &&& ~~~ lowMask c = 0 ↔ ∀ j, j < 64 → c ≤ j → v.getLsbD j = false := by
  constructor
  · intro h j hj hc
    have := congrArg (fun x => BitVec.getLsbD x j) h
    simpa [hj, Nat.not_lt.mpr hc, -BitVec.getLsbD_eq_getElem] using this
  · intro h
    apply BitVec.eq_of_getLsbD_eq
    intro j hj
    by_cases hc : j < c
    · simp [hj, hc, -BitVec.getLsbD_eq_getElem]
    · simp [h j hj (by omega), -BitVec.getLsbD_eq_getElem]

/-- The canonical form in terms of entries: legal dimensions, and a bit is set only inside the matrix. -/
theorem canonical_iff (m : Slot) :
    m.canonical ↔ (1 ≤ m.rows.toNat ∧ m.rows.toNat ≤ 64 ∧ 1 ≤ m.cols.toNat ∧ m.cols.toNat ≤ 64) ∧
      ∀ i j, (m.word i).getLsbD j = true → i < m.rows.toNat ∧ j < m.cols.toNat := by
  constructor
  · rintro ⟨h1, h2, h3, h4, hp, hw⟩
    refine ⟨⟨h1, h2, h3, h4⟩, fun i j hb => ?_⟩
    have hi : i < 64 := by
      by_contra h
      simp [word_of_ge m i (by omega)] at hb
    have hj : j < 64 := BitVec.lt_of_getLsbD hb
    constructor
    · by_contra h
      simp [hw i hi (by omega)] at hb
    · by_contra h
      have := (padding_zero_iff _ _).1 (hp i hi) j hj (by omega)
      simp [this] at hb
  · rintro ⟨⟨h1, h2, h3, h4⟩, hb⟩
    refine ⟨h1, h2, h3, h4, fun i hi => (padding_zero_iff _ _).2 fun j hj hc => ?_, fun i hi hr => ?_⟩
    · by_contra h
      have := hb i j (by simpa using h)
      omega
    · apply BitVec.eq_of_getLsbD_eq
      intro j hj
      by_contra h
      have := hb i j (by simpa using h)
      omega

theorem zero_canonical (r c : BitVec 7) (h1 : 1 ≤ r.toNat) (h2 : r.toNat ≤ 64) (h3 : 1 ≤ c.toNat)
    (h4 : c.toNat ≤ 64) : (Slot.zero r c).canonical := by
  rw [canonical_iff]
  exact ⟨⟨h1, h2, h3, h4⟩, fun i j h => by simp at h⟩

/-- Writing a word that keeps to the matrix's columns, in a row of the matrix, keeps the canonical form. -/
theorem setWord_canonical (m : Slot) (hm : m.canonical) (k : Nat) (v : Word) (hk : k < m.rows.toNat)
    (hv : ∀ j, v.getLsbD j = true → j < m.cols.toNat) : (m.setWord k v).canonical := by
  rw [canonical_iff] at hm ⊢
  refine ⟨hm.1, fun i j h => ?_⟩
  rw [word_setWord] at h
  split at h
  · next h' => exact ⟨by simpa [h'.1] using hk, hv j h⟩
  · exact hm.2 i j h

theorem colSet_canonical (q : Vector Byte 64) (m : Slot) (hm : m.canonical) (j : Nat) (hj : j < m.cols.toNat) :
    (colSet q m j).canonical := by
  rw [canonical_iff] at hm ⊢
  refine ⟨hm.1, fun i k h => ?_⟩
  have hk : k < 64 := BitVec.lt_of_getLsbD h
  have hi : i < 64 := by
    by_contra h'
    simp [word_of_ge _ i (by omega)] at h
  rw [getLsbD_word_colSet q m j i k hi hk] at h
  split at h
  · next h' => exact ⟨h'.1, by simpa [h'.2] using hj⟩
  · exact hm.2 i k h

theorem xorSlots_canonical (a b : Slot) (ha : a.canonical) (hb : b.canonical) (hr : a.rows = b.rows)
    (hc : a.cols = b.cols) : (xorSlots a b).canonical := by
  rw [canonical_iff] at ha hb ⊢
  refine ⟨ha.1, fun i j h => ?_⟩
  rw [word_xorSlots, BitVec.getLsbD_xor] at h
  cases h1 : (a.word i).getLsbD j with
  | true => exact ha.2 i j h1
  | false =>
    have := hb.2 i j (by simpa [h1] using h)
    rwa [← hr, ← hc] at this

theorem mulSlots_canonical (a b : Slot) (ha : a.canonical) (hb : b.canonical) : (mulSlots a b).canonical := by
  rw [canonical_iff] at ha hb ⊢
  refine ⟨⟨ha.1.1, ha.1.2.1, hb.1.2.2.1, hb.1.2.2.2⟩, fun i j h => ?_⟩
  have hi : i < 64 := by
    by_contra h'
    simp [word_of_ge _ i (by omega)] at h
  rw [getLsbD_word_mulSlots a b i j hi] at h
  simp only [Bool.and_eq_true, decide_eq_true_eq] at h
  exact ⟨h.1.1, h.1.2.1⟩

/-! ### The rank engine's units -/

/-- `PIVOT` finds a row of the range whose bit is set, and none stands before it. -/
theorem pivot_some (W : Vector Word 64) (c p n r : Nat) (h : pivot W c p n = some r) :
    p ≤ r ∧ r < n ∧ (rowAt W r).getLsbD c = true ∧ ∀ q, p ≤ q → q < r → (rowAt W q).getLsbD c = false := by
  have hm := List.mem_of_find?_eq_some h
  have hb := List.find?_some h
  rw [List.mem_range'_1] at hm
  refine ⟨hm.1, by omega, by simpa using hb, fun q hq hqr => ?_⟩
  rw [pivot, List.find?_range'_eq_some] at h
  simpa using h.2.2 q hq hqr

/-- `PIVOT` finds nothing exactly when no row of the range has its bit set. -/
theorem pivot_none (W : Vector Word 64) (c p n : Nat) :
    pivot W c p n = none ↔ ∀ q, p ≤ q → q < n → (rowAt W q).getLsbD c = false := by
  simp only [pivot, List.find?_eq_none, List.mem_range'_1, bext_eq_getLsbD, Bool.not_eq_true]
  constructor
  · intro h q h1 h2
    exact h q ⟨h1, by omega⟩
  · rintro h q ⟨h1, h2⟩
    exact h q h1 (by omega)

theorem rowAt_swapRows (W : Vector Word 64) (p r k : Nat) (hk : k < 64) :
    rowAt (swapRows W p r) k = if k = p then rowAt W r else if k = r then rowAt W p else rowAt W k := by
  simp only [swapRows, rowAt_tabulate, hk, if_true]

theorem rowAt_eliminate (W : Vector Word 64) (c p n k : Nat) (hk : k < 64) :
    rowAt (eliminate W c p n) k =
      if k < n ∧ k ≠ p ∧ (rowAt W k).getLsbD c = true then rowAt W k ^^^ rowAt W p else rowAt W k := by
  simp only [eliminate, rowAt_tabulate, hk, if_true, bext_eq_getLsbD, rxor]

end Sys2Proof.Machine
end

