-- ==== Sys2Proof/Laws/Meanings.lean ====
section
/-! SUPPORT. What a meaning can answer, said once for each instruction: it fails with a status and changes nothing but the
response, or it succeeds and writes only what its rule lets it write. -/

namespace Sys2Proof.Machine

/-- The command failed: the response is `(st, 0)` with `st` not OK, and nothing else changed. -/
def FailsWith (r : Result) (s : State) : Prop := ∃ st, st ≠ Status.ok ∧ r = .next (s.respond st 0)

/-- The command succeeded with that result and wrote slot `md` only. -/
def WritesSlot (r : Result) (s : State) (md : SlotNum) (m : Slot) : Prop :=
  r = .next ((s.setSlot md m).respond .ok 0)

theorem failsWith_fail (s : State) (st : Status) (h : st ≠ .ok) : FailsWith (fail st s) s := ⟨st, h, rfl⟩

/-- NEW fails, or writes the zero matrix of a legal shape. -/
theorem execNew_cases (md : SlotNum) (r c : Int) (s : State) :
    (¬ dimOk r c ∧ FailsWith (execNew md r c s) s) ∨
    (dimOk r c ∧ WritesSlot (execNew md r c s) s md (Slot.zero (BitVec.ofInt 7 r) (BitVec.ofInt 7 c))) := by
  by_cases h : dimOk r c
  · exact .inr ⟨h, by unfold execNew; rw [if_neg (not_not.2 h)]; rfl⟩
  · exact .inl ⟨h, by unfold execNew; rw [if_pos h]; exact failsWith_fail s _ (by decide)⟩

/-- NEWDEF writes the 64 by 64 zero matrix. -/
theorem execNewdef_cases (md : SlotNum) (s : State) : WritesSlot (execNewdef md s) s md (Slot.zero 64 64) := rfl

/-- SIZE fails or answers the shape. -/
theorem execSize_cases (ma : SlotNum) (s : State) :
    FailsWith (execSize ma s) s ∨
    ((s.slot ma).valid = true ∧ execSize ma s = .next (s.respond .ok (sizeWord (s.slot ma)))) := by
  unfold execSize
  split
  · exact .inl (failsWith_fail s _ (by decide))
  · next h => exact .inr ⟨by simpa using h, rfl⟩

/-- GET fails or answers an entry. -/
theorem execGet_cases (ma : SlotNum) (i j : Int) (s : State) :
    FailsWith (execGet ma i j s) s ∨
    ((s.slot ma).valid = true ∧ rowOk (s.slot ma) i ∧ colOk (s.slot ma) j ∧
      execGet ma i j s = .next (s.respond .ok (zextBit (bext ((s.slot ma).word i.toNat) j.toNat)))) := by
  unfold execGet
  simp only
  split
  · exact .inl (failsWith_fail s _ (by decide))
  · next h =>
    split
    · exact .inl (failsWith_fail s _ (by decide))
    · next h' =>
      rw [not_not] at h'
      exact .inr ⟨by simpa using h, h'.1, h'.2, rfl⟩

/-- SET fails, or replaces one bit of one word of a valid slot. -/
theorem execSet_cases (md : SlotNum) (i j : Int) (v : Word) (s : State) :
    FailsWith (execSet md i j v s) s ∨
    ((s.slot md).valid = true ∧ rowOk (s.slot md) i ∧ colOk (s.slot md) j ∧ valueOk v ∧
      WritesSlot (execSet md i j v s) s md
        ((s.slot md).setWord i.toNat (brep ((s.slot md).word i.toNat) j.toNat (v.getLsbD 0)))) := by
  unfold execSet
  simp only
  split
  · exact .inl (failsWith_fail s _ (by decide))
  · next h =>
    split
    · exact .inl (failsWith_fail s _ (by decide))
    · next h' =>
      rw [not_not] at h'
      split
      · exact .inl (failsWith_fail s _ (by decide))
      · next h'' => exact .inr ⟨by simpa using h, h'.1, h'.2, not_not.1 h'', rfl⟩

/-- GETROW fails or answers a row word. -/
theorem execGetrow_cases (ma : SlotNum) (i : Int) (s : State) :
    FailsWith (execGetrow ma i s) s ∨
    ((s.slot ma).valid = true ∧ rowOk (s.slot ma) i ∧
      execGetrow ma i s = .next (s.respond .ok ((s.slot ma).word i.toNat))) := by
  unfold execGetrow
  simp only
  split
  · exact .inl (failsWith_fail s _ (by decide))
  · next h =>
    split
    · exact .inl (failsWith_fail s _ (by decide))
    · next h' => exact .inr ⟨by simpa using h, not_not.1 h', rfl⟩

/-- SETROW fails, or replaces one word of a valid slot by the packed sequence. -/
theorem execSetrow_cases (md : SlotNum) (i : Int) (q : Bool) (d : Word) (s : State) :
    FailsWith (execSetrow md i q d s) s ∨
    ((s.slot md).valid = true ∧ rowOk (s.slot md) i ∧ q = true ∧ lengthOk d (s.slot md).cols.toNat ∧
      seqOk s.seq (s.slot md).cols.toNat ∧
      WritesSlot (execSetrow md i q d s) s md
        ((s.slot md).setWord i.toNat (seqPack s.seq (s.slot md).cols.toNat))) := by
  unfold execSetrow
  simp only
  split
  · exact .inl (failsWith_fail s _ (by decide))
  · next h =>
    split
    · exact .inl (failsWith_fail s _ (by decide))
    · next h1 =>
      split
      · exact .inl (failsWith_fail s _ (by decide))
      · next h2 =>
        split
        · exact .inl (failsWith_fail s _ (by decide))
        · next h3 =>
          split
          · exact .inl (failsWith_fail s _ (by decide))
          · next h4 =>
            exact .inr ⟨by simpa using h, not_not.1 h1, by simpa using h2, not_not.1 h3, not_not.1 h4, rfl⟩

/-- GETCOL fails or answers a column word. -/
theorem execGetcol_cases (ma : SlotNum) (j : Int) (s : State) :
    FailsWith (execGetcol ma j s) s ∨
    ((s.slot ma).valid = true ∧ colOk (s.slot ma) j ∧
      execGetcol ma j s = .next (s.respond .ok (colGet (s.slot ma) j.toNat))) := by
  unfold execGetcol
  simp only
  split
  · exact .inl (failsWith_fail s _ (by decide))
  · next h =>
    split
    · exact .inl (failsWith_fail s _ (by decide))
    · next h' => exact .inr ⟨by simpa using h, not_not.1 h', rfl⟩

/-- SETCOL fails, or replaces one bit of the words of a valid slot's rows. -/
theorem execSetcol_cases (md : SlotNum) (j : Int) (q : Bool) (d : Word) (s : State) :
    FailsWith (execSetcol md j q d s) s ∨
    ((s.slot md).valid = true ∧ colOk (s.slot md) j ∧ q = true ∧ lengthOk d (s.slot md).rows.toNat ∧
      seqOk s.seq (s.slot md).rows.toNat ∧
      WritesSlot (execSetcol md j q d s) s md (colSet s.seq (s.slot md) j.toNat)) := by
  unfold execSetcol
  simp only
  split
  · exact .inl (failsWith_fail s _ (by decide))
  · next h =>
    split
    · exact .inl (failsWith_fail s _ (by decide))
    · next h1 =>
      split
      · exact .inl (failsWith_fail s _ (by decide))
      · next h2 =>
        split
        · exact .inl (failsWith_fail s _ (by decide))
        · next h3 =>
          split
          · exact .inl (failsWith_fail s _ (by decide))
          · next h4 =>
            exact .inr ⟨by simpa using h, not_not.1 h1, by simpa using h2, not_not.1 h3, not_not.1 h4, rfl⟩

/-- SEQLD fails, or loads one octet. -/
theorem execSeqld_cases (k : Int) (d : Word) (s : State) :
    FailsWith (execSeqld k d s) s ∨
    (octetOk k ∧ execSeqld k d s = .next ({ s with seq := seqLoad s.seq k.toNat d }.respond .ok 0)) := by
  unfold execSeqld
  split
  · exact .inl (failsWith_fail s _ (by decide))
  · next h => exact .inr ⟨not_not.1 h, rfl⟩

/-- ADD and SUB fail, or write the sum of two valid slots of one shape. -/
theorem addSlots_cases (md ma mb : SlotNum) (s : State) :
    FailsWith (addSlots md ma mb s) s ∨
    ((s.slot ma).valid = true ∧ (s.slot mb).valid = true ∧ sameShape (s.slot ma) (s.slot mb) ∧
      WritesSlot (addSlots md ma mb s) s md (xorSlots (s.slot ma) (s.slot mb))) := by
  unfold addSlots
  simp only
  split
  · exact .inl (failsWith_fail s _ (by decide))
  · next h =>
    split
    · exact .inl (failsWith_fail s _ (by decide))
    · next h' =>
      simp only [not_or, Bool.not_eq_false] at h
      exact .inr ⟨h.1, h.2, not_not.1 h', rfl⟩

/-- MUL fails, or writes the product of two valid slots whose inner dimensions agree. -/
theorem execMul_cases (md ma mb : SlotNum) (s : State) :
    FailsWith (execMul md ma mb s) s ∨
    ((s.slot ma).valid = true ∧ (s.slot mb).valid = true ∧ innerOk (s.slot ma) (s.slot mb) ∧
      WritesSlot (execMul md ma mb s) s md (mulSlots (s.slot ma) (s.slot mb))) := by
  unfold execMul
  simp only
  split
  · exact .inl (failsWith_fail s _ (by decide))
  · next h =>
    split
    · exact .inl (failsWith_fail s _ (by decide))
    · next h' =>
      simp only [not_or, Bool.not_eq_false] at h
      exact .inr ⟨h.1, h.2, not_not.1 h', rfl⟩

/-- RANK fails or answers the engine's count. -/
theorem execRank_cases (ma : SlotNum) (s : State) :
    FailsWith (execRank ma s) s ∨
    ((s.slot ma).valid = true ∧ execRank ma s = .next (s.respond .ok (BitVec.ofNat 64 (rankEng (s.slot ma))))) := by
  unfold execRank
  split
  · exact .inl (failsWith_fail s _ (by decide))
  · next h => exact .inr ⟨by simpa using h, rfl⟩

/-- Every command fails and changes only the response, or answers OK with new slots, a new SEQ and a result, and changes
nothing else. -/
theorem exec_cases (i : Instr) (s : State) :
    FailsWith (exec i s) s ∨
    ∃ slots seq res, exec i s = .next ({ s with slots := slots, seq := seq }.respond .ok res) := by
  cases i with
  | new md r c =>
    rcases execNew_cases md r c s with ⟨_, h⟩ | ⟨_, h⟩
    · exact .inl h
    · exact .inr ⟨_, _, _, h⟩
  | newdef md => exact .inr ⟨_, _, _, execNewdef_cases md s⟩
  | get ma i j =>
    rcases execGet_cases ma i j s with h | ⟨_, _, _, h⟩
    · exact .inl h
    · exact .inr ⟨s.slots, s.seq, _, h⟩
  | set md i j v =>
    rcases execSet_cases md i j v s with h | ⟨_, _, _, _, h⟩
    · exact .inl h
    · exact .inr ⟨_, _, _, h⟩
  | getrow ma i =>
    rcases execGetrow_cases ma i s with h | ⟨_, _, h⟩
    · exact .inl h
    · exact .inr ⟨s.slots, s.seq, _, h⟩
  | setrow md i q d =>
    rcases execSetrow_cases md i q d s with h | ⟨_, _, _, _, _, h⟩
    · exact .inl h
    · exact .inr ⟨_, _, _, h⟩
  | getcol ma j =>
    rcases execGetcol_cases ma j s with h | ⟨_, _, h⟩
    · exact .inl h
    · exact .inr ⟨s.slots, s.seq, _, h⟩
  | setcol md j q d =>
    rcases execSetcol_cases md j q d s with h | ⟨_, _, _, _, _, h⟩
    · exact .inl h
    · exact .inr ⟨_, _, _, h⟩
  | add md ma mb =>
    rcases addSlots_cases md ma mb s with h | ⟨_, _, _, h⟩
    · exact .inl h
    · exact .inr ⟨_, _, _, h⟩
  | sub md ma mb =>
    rcases addSlots_cases md ma mb s with h | ⟨_, _, _, h⟩
    · exact .inl h
    · exact .inr ⟨_, _, _, h⟩
  | mul md ma mb =>
    rcases execMul_cases md ma mb s with h | ⟨_, _, _, h⟩
    · exact .inl h
    · exact .inr ⟨_, _, _, h⟩
  | rank ma =>
    rcases execRank_cases ma s with h | ⟨_, h⟩
    · exact .inl h
    · exact .inr ⟨s.slots, s.seq, _, h⟩
  | size ma =>
    rcases execSize_cases ma s with h | ⟨_, h⟩
    · exact .inl h
    · exact .inr ⟨s.slots, s.seq, _, h⟩
  | seqld k d =>
    rcases execSeqld_cases k d s with h | ⟨_, h⟩
    · exact .inl h
    · exact .inr ⟨_, _, _, h⟩
  | reservedE => exact .inl (failsWith_fail s _ (by decide))
  | reservedF => exact .inl (failsWith_fail s _ (by decide))

/-- A command word is answered with IllegalCommand, or runs the command it decodes to. -/
theorem runCommand_cases (w : CmdWord) (d : Word) (s : State) :
    (reservedBitSet w ∧ runCommand w d s = .next (s.respond .illegalCommand 0)) ∨
    ∃ i, decode w d = .ok i ∧ runCommand w d s = exec i s := by
  unfold runCommand
  cases h : decode w d with
  | ok i => exact .inr ⟨i, rfl, rfl⟩
  | error e =>
    left
    refine ⟨?_, rfl⟩
    by_contra hr
    simp only [decode, hr, if_false] at h
    split at h <;> cases h

end Sys2Proof.Machine
end

