-- ==== Sys2Proof/Laws/PerInstr.lean ====
section
/-! SUPPORT. Statements about every command, one lemma per constructor. -/

namespace Sys2Proof.Laws

/-- The `match` column of spec/opcode_table.json. -/
def tableMatch : Instr → CmdWord
  | .new _ _ _ => 0x00000000
  | .newdef _ => 0x00000001
  | .get _ _ _ => 0x00000002
  | .set _ _ _ _ => 0x00000003
  | .getrow _ _ => 0x00000004
  | .setrow _ _ _ _ => 0x00000005
  | .getcol _ _ => 0x00000006
  | .setcol _ _ _ _ => 0x00000007
  | .add _ _ _ => 0x00000008
  | .sub _ _ _ => 0x00000009
  | .mul _ _ _ => 0x0000000A
  | .rank _ => 0x0000000B
  | .size _ => 0x0000000C
  | .seqld _ _ => 0x0000000D
  | .reservedE => 0x0000000E
  | .reservedF => 0x0000000F

/-- The encoder's word of a command matches the command's row of the opcode table, whatever its operands. -/
def EncodeMatchesRow.Statement (i : Instr) : Prop := (encode i).1 &&& 0xF000080F#32 = tableMatch i

/-- The masked command word is the opcode. -/
theorem commandWord_mask (op : BitVec 4) (md ma mb : SlotNum) (s : Bool) (i j : Int) :
    commandWord op md ma mb s i j &&& 0xF000080F#32 = op.setWidth 32 := by
  rw [commandWord_eq_joined]
  apply BitVec.eq_of_getLsbD_eq
  intro k hk
  simp only [BitVec.getLsbD_and, BitVec.getLsbD_append, BitVec.getLsbD_setWidth]
  interval_cases k <;> simp

namespace EncodeMatchesRow

theorem new (md : SlotNum) (r c : Int) : Statement (.new md r c) := commandWord_mask 0x0 md 0 0 false r c
theorem newdef (md : SlotNum) : Statement (.newdef md) := commandWord_mask 0x1 md 0 0 false 0 0
theorem get (ma : SlotNum) (i j : Int) : Statement (.get ma i j) := commandWord_mask 0x2 0 ma 0 false i j
theorem set (md : SlotNum) (i j : Int) (v : Word) : Statement (.set md i j v) := commandWord_mask 0x3 md 0 0 false i j
theorem getrow (ma : SlotNum) (i : Int) : Statement (.getrow ma i) := commandWord_mask 0x4 0 ma 0 false i 0
theorem setrow (md : SlotNum) (i : Int) (q : Bool) (d : Word) : Statement (.setrow md i q d) :=
  commandWord_mask 0x5 md 0 0 q i 0
theorem getcol (ma : SlotNum) (j : Int) : Statement (.getcol ma j) := commandWord_mask 0x6 0 ma 0 false 0 j
theorem setcol (md : SlotNum) (j : Int) (q : Bool) (d : Word) : Statement (.setcol md j q d) :=
  commandWord_mask 0x7 md 0 0 q 0 j
theorem add (md ma mb : SlotNum) : Statement (.add md ma mb) := commandWord_mask 0x8 md ma mb false 0 0
theorem sub (md ma mb : SlotNum) : Statement (.sub md ma mb) := commandWord_mask 0x9 md ma mb false 0 0
theorem mul (md ma mb : SlotNum) : Statement (.mul md ma mb) := commandWord_mask 0xA md ma mb false 0 0
theorem rank (ma : SlotNum) : Statement (.rank ma) := commandWord_mask 0xB 0 ma 0 false 0 0
theorem size (ma : SlotNum) : Statement (.size ma) := commandWord_mask 0xC 0 ma 0 false 0 0
theorem seqld (k : Int) (d : Word) : Statement (.seqld k d) := commandWord_mask 0xD 0 0 0 false k 0
theorem reservedE : Statement .reservedE := commandWord_mask 0xE 0 0 0 false 0 0
theorem reservedF : Statement .reservedF := commandWord_mask 0xF 0 0 0 false 0 0

end EncodeMatchesRow

end Sys2Proof.Laws
end

