-- ==== Sys2Proof/Laws/Step.lean ====
section
/-! SUPPORT. What one edge can do, said once. -/

namespace Sys2Proof.Machine

/-- The five things an edge can do: reset, wait for a command or accept one, count down, complete, and hold or give up the
response. -/
theorem step_cases (s : State) :
    (s.pins.rst = true ∧ step s = .next s.advance.resetEdge) ∨
    (s.pins.rst = false ∧
      ((s.phase = .idle ∧ s.pins.cmdValid = false ∧ step s = .next s.advance) ∨
       (s.phase = .idle ∧ s.pins.cmdValid = true ∧ step s = .next (s.advance.accept s.pins)) ∨
       (s.phase = .busy ∧ s.wait = 0 ∧ step s = runCommand s.cmdReg s.dataReg s.advance) ∨
       (∃ n, s.phase = .busy ∧ s.wait = n + 1 ∧ step s = .next { s.advance with wait := n }) ∨
       (s.phase = .resp ∧ s.pins.rspReady = false ∧ step s = .next s.advance) ∨
       (s.phase = .resp ∧ s.pins.rspReady = true ∧ step s = .next { s.advance with phase := .idle }))) := by
  cases hr : s.pins.rst with
  | true => exact .inl ⟨rfl, by simp [step, edge, hr]⟩
  | false =>
    refine .inr ⟨rfl, ?_⟩
    cases hp : s.phase with
    | idle =>
      cases hv : s.pins.cmdValid with
      | false => exact .inl ⟨rfl, rfl, by simp [step, edge, hr, hp, hv]⟩
      | true => exact .inr (.inl ⟨rfl, rfl, by simp [step, edge, hr, hp, hv]⟩)
    | busy =>
      cases hw : s.wait with
      | zero => exact .inr (.inr (.inl ⟨rfl, rfl, by simp [step, edge, hr, hp, hw]⟩))
      | succ n => exact .inr (.inr (.inr (.inl ⟨n, rfl, rfl, by simp [step, edge, hr, hp, hw]⟩)))
    | resp =>
      cases hv : s.pins.rspReady with
      | false => exact .inr (.inr (.inr (.inr (.inl ⟨rfl, rfl, by simp [step, edge, hr, hp, hv]⟩))))
      | true => exact .inr (.inr (.inr (.inr (.inr ⟨rfl, rfl, by simp [step, edge, hr, hp, hv]⟩))))

/-- The state that `withFetchWord` makes is about to complete the command of that word. -/
theorem withFetchWord_completes (s : State) (nbits w : Nat) :
    (s.withFetchWord nbits w).pins.rst = false ∧ (s.withFetchWord nbits w).phase = .busy ∧
      (s.withFetchWord nbits w).wait = 0 := by
  refine ⟨?_, rfl, rfl⟩
  simp only [State.withFetchWord, State.aboutToRun, State.pins]
  cases s.inputs <;> rfl

end Sys2Proof.Machine
end

