-- ==== Sys2Proof/Tests/Slice0.lean ====
section
/-! SUPPORT. The model's own tests. Every expected value is taken from spec/95_test_vectors.md (the vector's name stands in
the theorem's comment) or from an example of a rule. -/

namespace Sys2Proof.Tests

open Sys2Proof.Machine Sys2Proof.Safety

/-! ### WellFormed refuses an operand without an encoding (R90, U11) and the assembler the reserved opcodes (U8) -/

theorem test_new_rows_refused : (Instr.new 0 128 3).wellFormed = false := by decide
theorem test_new_cols_refused : (Instr.new 0 3 (-129)).wellFormed = false := by decide
theorem test_get_row_refused : (Instr.get 0 128 0).wellFormed = false := by decide
theorem test_get_col_refused : (Instr.get 0 0 (-129)).wellFormed = false := by decide
theorem test_set_row_refused : (Instr.set 0 (-129) 0 1).wellFormed = false := by decide
theorem test_set_col_refused : (Instr.set 0 0 128 1).wellFormed = false := by decide
theorem test_getrow_row_refused : (Instr.getrow 0 128).wellFormed = false := by decide
theorem test_setrow_row_refused : (Instr.setrow 0 128 true 1).wellFormed = false := by decide
theorem test_getcol_col_refused : (Instr.getcol 0 (-129)).wellFormed = false := by decide
theorem test_setcol_col_refused : (Instr.setcol 0 (-129) true 1).wellFormed = false := by decide
theorem test_seqld_octet_refused : (Instr.seqld 128 1).wellFormed = false := by decide
theorem test_edge_operands_accepted : (Instr.new 0 (-128) 127).assemblable = true := by decide
theorem test_reserved_opcodes_not_assemblable :
    Instr.reservedE.assemblable = false ∧ Instr.reservedF.assemblable = false := by decide

/-! ### Decoding: words written out from R81, `RSV1 J I RSV0 S MB MA MD OP` -/

-- NEW m2, 1, -128: J = 10000000, I = 00000001, MD = 10, OP = 0000
theorem test_decode_new :
    decode 0b0000_10000000_00000001_0_0_00_00_10_0000#32 0 = .ok (.new 2 1 (-128)) := by decide
-- CONS-13: NEWDEF m3
theorem test_decode_newdef :
    decode 0b0000_00000000_00000000_0_0_00_00_11_0001#32 0 = .ok (.newdef 3) := by decide
-- ELEM-19: GET m0, 0, 1 with MB = 3, S = 1 and DATA set, all ignored
theorem test_decode_get :
    decode 0b0000_00000001_00000000_0_1_11_00_00_0010#32 0xFFFF = .ok (.get 0 0 1) := by decide
-- SET m1, 2, 5, #1 (R91's example)
theorem test_decode_set :
    decode 0b0000_00000101_00000010_0_0_00_00_01_0011#32 1 = .ok (.set 1 2 5 1) := by decide
-- GETROW m3, 2
theorem test_decode_getrow :
    decode 0b0000_00000000_00000010_0_0_00_11_00_0100#32 0 = .ok (.getrow 3 2) := by decide
-- ROWC-5: SETROW m0, 1, #4, and ROWC-6: SETROW.SC m0, 1, #1
theorem test_decode_setrow :
    decode 0b0000_00000000_00000001_0_1_00_00_00_0101#32 4 = .ok (.setrow 0 1 true 4) ∧
    decode 0b0000_00000000_00000001_0_0_00_00_00_0101#32 1 = .ok (.setrow 0 1 false 1) := by decide
-- GETCOL m1, -1
theorem test_decode_getcol :
    decode 0b0000_11111111_00000000_0_0_00_01_00_0110#32 0 = .ok (.getcol 1 (-1)) := by decide
-- SETCOL m1, 3, #5 (program P3, line 26)
theorem test_decode_setcol :
    decode 0b0000_00000011_00000000_0_1_00_00_01_0111#32 5 = .ok (.setcol 1 3 true 5) := by decide
-- S1: ADD m2, m0, m1
theorem test_decode_add :
    decode 0b0000_00000000_00000000_0_0_01_00_10_1000#32 0 = .ok (.add 2 0 1) := by decide
-- ARIT-7: SUB m3, m2, m0
theorem test_decode_sub :
    decode 0b0000_00000000_00000000_0_0_00_10_11_1001#32 0 = .ok (.sub 3 2 0) := by decide
-- ARIT-16: MUL m2, m2, m3
theorem test_decode_mul :
    decode 0b0000_00000000_00000000_0_0_11_10_10_1010#32 0 = .ok (.mul 2 2 3) := by decide
-- RANK m3 (program P4, line 20)
theorem test_decode_rank :
    decode 0b0000_00000000_00000000_0_0_00_11_00_1011#32 0 = .ok (.rank 3) := by decide
-- CONS-15: SIZE m2
theorem test_decode_size :
    decode 0b0000_00000000_00000000_0_0_00_10_00_1100#32 0 = .ok (.size 2) := by decide
-- ROWC-27: SEQLD 7, #0xFF
theorem test_decode_seqld :
    decode 0b0000_00000000_00000111_0_0_00_00_00_1101#32 0xFF = .ok (.seqld 7 0xFF) := by decide
-- ILLE-1, ILLE-2
theorem test_decode_reserved_opcodes :
    decode 0x0000000E#32 0 = .ok .reservedE ∧ decode 0x0000000F#32 0 = .ok .reservedF := by decide
-- ILLE-3, ILLE-5: one reserved bit each, and ILLE-7 over a legal command
theorem test_decode_reserved_bits :
    decode 0x10000000#32 0 = .error .reservedBits ∧ decode 0x00000800#32 0 = .error .reservedBits ∧
    decode 0x10000002#32 0 = .error .reservedBits := by decide
-- the encoder writes the listed words of ELEM-12 and ARIT-10
theorem test_encode_words :
    encode (.set 0 2 2 1) = (0x00202003#32, 1) ∧ encode (.mul 3 0 2) = (0x0000023A#32, 0) := by decide
-- DATA stands above the command word in a table word
theorem test_decodeTableWord_data :
    decodeTableWord 96 0x80000700D = some (.seqld 7 8) ∧ decodeTableWord 32 0x80000700D = some (.seqld 7 0) := by decide

/-! ### One command each, from the vectors' start states -/

/-- A valid slot with the listed words, 0 past them. -/
def slotOf (r c : BitVec 7) (ws : List Word) : Slot :=
  { valid := true, rows := r, cols := c, w := tabulate 64 fun k => ws.getD k 0 }

/-- The reset state with the given slots and the given first elements of SEQ. -/
def withSlots (m0 m1 m2 m3 : Slot) (es : List Byte) : State :=
  { State.reset with slots := #v[m0, m1, m2, m3], seq := tabulate 64 fun e => es.getD e 0 }

/-- The start state of the ARIT vectors, with SEQ as the first ROWC vectors have it. -/
def demo : State :=
  withSlots (slotOf 3 3 [0x7, 0x5, 0x3]) (slotOf 3 3 [0x5, 0x0, 0x4]) (slotOf 3 4 [0x1, 0x2, 0x3]) Slot.afterReset
    [1, 0, 1, 1]

/-- `demo` with the non-binary element of ROWC-21. -/
def demoBad : State := { demo with seq := tabulate 64 fun e => ([1, 0, 2, 5] : List Byte).getD e 0 }

/-- STATUS and RESULT of the response. -/
def response : Result → Option (BitVec 4 × Word)
  | .next t => if t.phase = .resp then some (t.rspStatus, t.rspResult) else none
  | .fault _ => none
  | .refused _ => none

/-- The first words of a slot after the command, and its shape. -/
def slotAfter (n : Nat) (k : SlotNum) : Result → Option (Bool × Nat × Nat × List Word)
  | .next t =>
    let m := t.slots[k]
    some (m.valid, m.rows.toNat, m.cols.toNat, (List.range n).map m.word)
  | .fault _ => none
  | .refused _ => none

-- CONS-11
theorem test_new_overwrites : slotAfter 3 1 (exec (.new 1 2 5) demo) = some (true, 2, 5, [0, 0, 0]) := by decide
-- CONS-3
theorem test_new_rejects : response (exec (.new 0 64 65) State.reset) = some (1, 0) := by decide
-- CONS-13
theorem test_newdef : slotAfter 2 3 (exec (.newdef 3) State.reset) = some (true, 64, 64, [0, 0]) := by decide
-- CONS-14 and the example of R116 (a 3 by 5 matrix)
theorem test_size : response (exec (.size 0) State.reset) = some (7, 0) ∧
    response (exec (.size 0) (withSlots (slotOf 3 5 []) (slotOf 1 1 []) (slotOf 1 1 []) (slotOf 1 1 []) [])) =
      some (0, 0x503) := by decide
-- ELEM-2, ELEM-3
theorem test_get : response (exec (.get 0 0 1) demo) = some (0, 1) ∧
    response (exec (.get 0 2 2) demo) = some (0, 0) := by decide
-- ELEM-4, ELEM-7
theorem test_get_bounds : response (exec (.get 0 (-1) 0) demo) = some (2, 0) ∧
    response (exec (.get 0 0 3) demo) = some (2, 0) := by decide
-- ELEM-12
theorem test_set : slotAfter 3 0 (exec (.set 0 2 2 1) demo) = some (true, 3, 3, [0x7, 0x5, 0x7]) := by decide
-- ELEM-14, ELEM-15
theorem test_set_fails : response (exec (.set 0 0 0 0x8000000000000000) demo) = some (3, 0) ∧
    response (exec (.set 0 3 0 2) demo) = some (2, 0) := by decide
-- S2: GETROW m0, 1
theorem test_getrow :
    response (exec (.getrow 0 1) (withSlots (slotOf 3 3 [3, 6, 2]) (slotOf 1 1 []) (slotOf 1 1 []) (slotOf 1 1 []) [])) =
      some (0, 6) := by decide
-- ROWC-5, on slot 2 of demo
theorem test_setrow : slotAfter 3 2 (exec (.setrow 2 1 true 4) demo) = some (true, 3, 4, [0x1, 0xD, 0x3]) := by decide
-- ROWC-7, ROWC-23, ROWC-21
theorem test_setrow_fails : response (exec (.setrow 2 1 true 3) demo) = some (4, 0) ∧
    response (exec (.setrow 2 0 false 4) demoBad) = some (5, 0) ∧
    response (exec (.setrow 2 0 true 4) demoBad) = some (3, 0) := by decide
-- ROWC-13, ROWC-14
theorem test_getcol : response (exec (.getcol 2 0) demo) = some (0, 5) ∧
    response (exec (.getcol 2 1) demo) = some (0, 6) := by decide
-- ROWC-17
theorem test_setcol : slotAfter 3 2 (exec (.setcol 2 3 true 3) demo) = some (true, 3, 4, [0x9, 0x2, 0xB]) := by decide
-- ROWC-18, ROWC-20
theorem test_setcol_fails : response (exec (.setcol 2 3 true 4) demo) = some (4, 0) ∧
    response (exec (.setcol 2 4 true 3) demo) = some (2, 0) := by decide
-- S1 and ARIT-5 (the destination is a source)
theorem test_add : slotAfter 3 2 (exec (.add 2 0 1) demo) = some (true, 3, 3, [0x2, 0x5, 0x7]) ∧
    slotAfter 3 1 (exec (.add 1 0 1) demo) = some (true, 3, 3, [0x2, 0x5, 0x7]) := by decide
-- ARIT-2, ARIT-7
theorem test_sub : slotAfter 3 3 (exec (.sub 3 0 1) demo) = some (true, 3, 3, [0x2, 0x5, 0x7]) ∧
    response (exec (.sub 3 2 0) demo) = some (6, 0) := by decide
-- ARIT-10
theorem test_mul : slotAfter 3 3 (exec (.mul 3 0 2) demo) = some (true, 3, 4, [0x0, 0x2, 0x3]) := by decide
-- ARIT-11, ARIT-14
theorem test_mul_fails : response (exec (.mul 3 2 0) demo) = some (6, 0) ∧
    response (exec (.mul 3 0 3) demo) = some (7, 0) := by decide
-- S3
theorem test_rank :
    response (exec (.rank 0) (withSlots (slotOf 4 4 [7, 5, 6, 4]) (slotOf 1 1 []) (slotOf 1 1 []) (slotOf 1 1 []) [])) =
      some (0, 3) := by decide
-- RANK-4 (a swap is needed) and RANK-10
theorem test_rank_swap : rankEng (slotOf 2 2 [2, 1]) = 2 ∧ rankEng (slotOf 3 5 [0x11, 0x0E, 0x1F]) = 2 := by decide
-- ROWC-26
theorem test_seqld :
    (match exec (.seqld 0 0x0807060504030201) State.reset with
      | .next t => (List.range 9).map (seqAt t.seq)
      | .fault _ => []
      | .refused _ => []) = [1, 2, 3, 4, 5, 6, 7, 8, 0] := by decide
-- ROWC-28, ROWC-29
theorem test_seqld_fails : response (exec (.seqld 8 1) State.reset) = some (2, 0) ∧
    response (exec (.seqld (-1) 1) State.reset) = some (2, 0) := by decide
-- ILLE-1, ILLE-2
theorem test_reserved : response (exec .reservedE State.reset) = some (8, 0) ∧
    response (exec .reservedF State.reset) = some (8, 0) := by decide

/-! ### The channel -/

-- ILLE-4: through the completing edge
theorem test_step_reserved_bits : response (step (State.reset.withFetchWord 32 0xF000000B)) = some (8, 0) := by decide
-- P5, line 7, from a 64 by 64 zero matrix
theorem test_step_runs_size :
    response (step ((demo.setSlot 0 (Slot.zero 64 64)).withFetchWord 32 0x0000000C)) = some (0, 0x4040) := by decide
-- R250: reset wins over a command on the port
theorem test_step_reset :
    (match step { demo with inputs := [⟨true, true, 0x00000001, 0, true⟩] } with
      | .next t => t.phase == .idle && !(t.slots[0]).valid && !(t.slots[2]).valid
      | .fault _ => false
      | .refused _ => false) = true := by decide
-- R91's spelling of a scalar operand
theorem test_text : commandText (.setrow 0 1 false 1) = some "SETROW.SC m0, 1, #1" := by decide

/-! ### Witnesses: for each statement with hypotheses, a state and operands that meet them, clause by clause -/

/-- `demo` with a full-size matrix in slot 3, so that 63 is the last row and the last column, and a binary SEQ. -/
def wide : State := demo.setSlot 3 (slotOf 64 64 [0x8000000000000001])

/-- The host offers the command `w`, `d` at the coming edge. -/
def offering (w : CmdWord) (d : Word) (s : State) : State :=
  { s with inputs := [{ rst := false, cmdValid := true, cmdWord := w, cmdData := d, rspReady := false }] }

/-- The host holds `rst` at 1 at the coming edge. -/
def underReset (s : State) : State := { s with inputs := [{ Pins.quiet with rst := true }] }

/-- The host takes the response at the coming edge. -/
def taking (s : State) : State := { s with inputs := [{ Pins.quiet with rspReady := true }] }

/-- `demo` with a response presented. -/
def presenting : State := demo.respond .ok 5

/-- `demo` with other contents in its empty slot. -/
def demoHidden : State := demo.setSlot 3 { slotOf 9 70 [1, 2] with valid := false }

/-- The state that a meaning or a step answers. -/
def nextOf : Result → State
  | .next t => t
  | .fault _ => State.reset
  | .refused _ => State.reset

theorem witness_DecodeInvertsEncode :
    (Instr.new 3 (-128) 127).wellFormed = true ∧ (Instr.seqld (-128) 5).wellFormed = true := by decide
theorem witness_EncodeAgreesOnReadBits :
    decode 0x00502453#32 1 = .ok (.set 1 2 5 1) ∧
    readsData ((0x00502453#32 : CmdWord).toNat % 16) = true ∧
    decode 0x00100732#32 9 = .ok (.get 0 0 1) ∧ readsData ((0x00100732#32 : CmdWord).toNat % 16) = false := by decide
theorem witness_IgnoredFieldsChangeNothing :
    (0x00100002#32 : CmdWord).toNat % 16 = (0x00100732#32 : CmdWord).toNat % 16 ∧
    0x00100002#32 &&& readMask 2 = 0x00100732#32 &&& readMask 2 ∧ readsData 2 = false ∧
    0x00502013#32 &&& readMask 3 = 0x005027D3#32 &&& readMask 3 ∧ readsData 3 = true := by decide
theorem witness_ReservedBitsAnswerIllegalCommand :
    0x00000800#32 &&& 0xF0000800#32 ≠ 0#32 ∧ 0x10000002#32 &&& 0xF0000800#32 ≠ 0#32 ∧
    0x8000000F#32 &&& 0xF0000800#32 ≠ 0#32 := by decide
theorem witness_Selects : ∀ op : Fin 16,
    (BitVec.ofNat 32 op.val ||| 0x0AAAA7A0#32) &&& 0xF000080F#32 = BitVec.ofNat 32 op.val := by decide
theorem witness_StepRunsDecodedCommand :
    let s := demo.withFetchWord 32 0x00000128
    Completing s ∧ decode s.cmdReg s.dataReg = .ok (.add 2 0 1) ∧ (Instr.add 2 0 1).wellFormed = true := by decide
theorem witness_AcceptanceSamplesCommand :
    ((offering 0x128 0 demo).pins.rst = false ∧ (offering 0x128 0 demo).pins.cmdValid = true ∧
      (offering 0x128 0 demo).ports.cmdReady = true) ∧
    (demo.pins.rst = false ∧ demo.pins.cmdValid = false ∧ demo.phase = .idle) ∧
    (offering 0x128 0 presenting).ports.cmdReady = false ∧ (demo.withFetchWord 32 0x128).ports.cmdReady = false ∧
    (underReset demo).ports.cmdReady = false := by decide
theorem witness_AcceptanceSamplesCommand_busy :
    let s := { demo.withFetchWord 32 0x128 with wait := 1 }
    s.ports.cmdReady = false ∧ ∃ t, step s = .next t ∧ t.phase = .busy :=
  ⟨by decide, _, rfl, by decide⟩
theorem witness_CommandCompletesAfterLatency :
    (offering 0x128 0 demo).phase = .idle ∧
    (∃ p, (offering 0x128 0 demo).inputs = p :: [] ∧ p.rst = false ∧ p.cmdValid = true ∧
      (∀ q ∈ ([] : List Pins).take (Config.latency p.cmdWord p.cmdData demo.slots demo.seq), q.rst = false) ∧
      1 ≤ Config.latency p.cmdWord p.cmdData demo.slots demo.seq) :=
  ⟨rfl, _, rfl, rfl, rfl, by simp, Nat.le_add_left _ _⟩
theorem witness_ResponseTakenReturnsToIdle :
    presenting.phase = .resp ∧ presenting.pins.rst = false ∧ presenting.pins.rspReady = false ∧
    (taking presenting).phase = .resp ∧ (taking presenting).pins.rst = false ∧
    (taking presenting).pins.rspReady = true := by decide
theorem witness_UntakenResponseBlocksForever :
    (offering 0x128 0 presenting).phase = .resp ∧ 1 ≤ (offering 0x128 0 presenting).inputs.length ∧
    ∀ p ∈ (offering 0x128 0 presenting).inputs.take 1, p.rst = false ∧ p.rspReady = false := by decide
theorem witness_PortsFollowPhase :
    demo.pins.rst = false ∧ demo.phase = .idle ∧ presenting.pins.rst = false ∧ presenting.phase = .resp := by decide
theorem witness_ResetEdgeEntersResetState :
    (underReset presenting).pins.rst = true ∧ (underReset (demo.withFetchWord 32 0x128)).pins.rst = true := by decide
theorem witness_ResetReleasesToReady : (underReset presenting).pins.rst = true ∧
    ∃ t, step (underReset presenting) = .next t ∧ t.pins.rst = false := by
  refine ⟨by decide, nextOf (step (underReset presenting)), rfl, by decide⟩
theorem witness_SlotsCanonical : SlotsCanonical demo ∧ SlotsCanonical wide := by decide
theorem witness_StepKeepsSlotsCanonical :
    SlotsCanonical (demo.withFetchWord 32 0x128) ∧
    ∃ t, step (demo.withFetchWord 32 0x128) = .next t ∧ t.slots[2] ≠ demo.slots[2] := by
  refine ⟨by decide, nextOf (step (demo.withFetchWord 32 0x128)), rfl, by decide⟩
theorem witness_StepRefinesExec :
    (demo.withFetchWord 32 0x128).pins.rst = false ∧ (∃ t, step (demo.withFetchWord 32 0x128) = .next t) ∧
    demo.pins.rst = false ∧ ∃ t, step demo = .next t :=
  ⟨by decide, ⟨_, rfl⟩, by decide, _, rfl⟩
theorem witness_RunIsInOrderExecution :
    ∀ p ∈ (taking (demo.withFetchWord 32 0x128)).inputs.take 2, p.rst = false := by decide
theorem witness_FailedCommandWritesNothing :
    (∃ t, exec (.get 3 0 0) demo = .next t ∧ t.rspStatus ≠ 0) ∧
    ∃ t, runCommand 0x80000000 0 demo = .next t ∧ t.rspStatus ≠ 0 := ⟨⟨_, rfl, by decide⟩, _, rfl, by decide⟩
theorem witness_StatusIsFirstFailingCheck :
    (0x00000128#32 &&& 0xF0000800#32 = 0#32 ∧ decode 0x00000128#32 0 = .ok (.add 2 0 1)) ∧
    0x10000128#32 &&& 0xF0000800#32 ≠ 0#32 ∧
    firstFailing demo (.add 2 0 1) = 0 ∧ firstFailing demo (.new 0 65 1) = 1 ∧
    firstFailing demo (.set 0 3 0 2) = 2 ∧ firstFailing demoBad (.setrow 2 0 true 4) = 3 ∧
    firstFailing demoBad (.setrow 2 0 true 3) = 4 ∧ firstFailing demoBad (.setrow 2 0 false 3) = 5 ∧
    firstFailing demo (.mul 3 2 0) = 6 ∧ firstFailing demo (.mul 3 2 3) = 7 ∧
    firstFailing demo .reservedE = 8 := by decide
theorem witness_EmptySlotsFailOperandsNotDestinations :
    ((3 : SlotNum) ∈ operandSlots (.mul 0 1 3) ∧ demo.slots[3].valid = false) ∧
    createdSlot (.add 3 0 1) = some 3 ∧ (3 : SlotNum) ∉ operandSlots (.add 3 0 1) := by decide
theorem witness_CommandsWriteOnlyTheirDestination :
    writtenSlot (.add 2 0 1) ≠ some 0 ∧ writtenSlot (.rank 0) ≠ some 0 ∧
    ∀ (k : Int) (d : Word), Instr.add 2 0 1 ≠ .seqld k d :=
  ⟨by decide, by decide, fun _ _ h => nomatch h⟩
theorem witness_ShapesChangeOnlyByCreation :
    (∃ t, step (demo.withFetchWord 32 0x31) = .next t ∧ ¬ SameShape t.slots[3] demo.slots[3]) ∧
    ∃ t, step (underReset demo) = .next t ∧ ¬ SameShape t.slots[0] demo.slots[0] := by
  refine ⟨⟨nextOf (step (demo.withFetchWord 32 0x31)), rfl, by decide⟩,
    nextOf (step (underReset demo)), rfl, by decide⟩
theorem witness_SeqChangesOnlyBySeqld :
    (∃ t, step (demo.withFetchWord 96 0xFF0000700D) = .next t ∧ t.seq ≠ demo.seq) ∧
    ∃ t, step (underReset demo) = .next t ∧ t.seq ≠ demo.seq := by
  refine ⟨⟨nextOf (step (demo.withFetchWord 96 0xFF0000700D)), rfl, by decide⟩,
    nextOf (step (underReset demo)), rfl, by decide⟩
theorem witness_ReadsHaveNoSideEffect :
    readsOnly (.rank 0) = true ∧ demo.slots = presenting.slots ∧ demo.seq = presenting.seq ∧ demo ≠ presenting := by
  decide
theorem witness_EmptySlotContentsUnobservable :
    SameVisible demo demoHidden ∧ demo.slots[3] ≠ demoHidden.slots[3] := by decide
theorem witness_FreshMatrixHasRankZero : (1 : Int) ≤ 1 ∧ (1 : Int) ≤ 64 ∧ (64 : Int) ≤ 64 := by decide
theorem witness_NewMakesZeroMatrix :
    response (exec (.new 0 0 1) demo) = some (1, 0) ∧ response (exec (.new 0 1 65) demo) = some (1, 0) ∧
    slotAfter 1 0 (exec (.new 0 1 64) demo) = some (true, 1, 64, [0]) ∧
    slotAfter 1 3 (exec (.new 3 64 1) demo) = some (true, 64, 1, [0]) := by decide
theorem witness_SizeReportsShape :
    demo.slots[3].valid = false ∧ wide.slots[3].valid = true ∧
    response (exec (.size 3) wide) = some (0, 0x4040) := by decide
theorem witness_GetReadsEntry :
    demo.slots[3].valid = false ∧ wide.slots[3].valid = true ∧
    ¬ (RowIn wide.slots[3] 64 ∧ ColIn wide.slots[3] 63) ∧ ¬ (RowIn wide.slots[3] 0 ∧ ColIn wide.slots[3] (-1)) ∧
    RowIn wide.slots[3] 0 ∧ ColIn wide.slots[3] 63 ∧ response (exec (.get 3 0 63) wide) = some (0, 1) := by decide
theorem witness_SetWritesOneEntry :
    demo.slots[3].valid = false ∧ wide.slots[3].valid = true ∧
    ¬ (RowIn wide.slots[3] 63 ∧ ColIn wide.slots[3] 64) ∧ RowIn wide.slots[3] 63 ∧ ColIn wide.slots[3] 0 ∧
    (2 : Word) ≠ 0 ∧ (2 : Word) ≠ 1 ∧ response (exec (.set 3 63 0 2) wide) = some (3, 0) ∧
    response (exec (.set 3 63 0 1) wide) = some (0, 0) := by decide
theorem witness_SetThenGetReturnsValue :
    SlotsCanonical wide ∧ ∃ t, exec (.set 3 63 63 1) wide = .next t ∧ t.rspStatus = 0 :=
  ⟨by decide, _, rfl, by decide⟩
theorem witness_GetrowReadsRowWord :
    demo.slots[3].valid = false ∧ wide.slots[3].valid = true ∧ ¬ RowIn wide.slots[3] 64 ∧ ¬ RowIn wide.slots[3] (-1) ∧
    RowIn wide.slots[3] 63 ∧ RowIn wide.slots[3] 0 := by decide
theorem witness_SetrowReplacesRow :
    demo.slots[3].valid = false ∧ demo.slots[2].valid = true ∧ ¬ RowIn demo.slots[2] 3 ∧ ¬ RowIn demo.slots[2] (-1) ∧
    RowIn demo.slots[2] 2 ∧ (3 : Word).toNat ≠ demo.slots[2].cols.toNat ∧
    (4 : Word).toNat = demo.slots[2].cols.toNat ∧ ¬ Binary demoBad demoBad.slots[2].cols.toNat ∧
    Binary demo demo.slots[2].cols.toNat := by decide
theorem witness_GetcolReadsColumnWord :
    demo.slots[3].valid = false ∧ wide.slots[3].valid = true ∧ ¬ ColIn wide.slots[3] 64 ∧ ¬ ColIn wide.slots[3] (-1) ∧
    ColIn wide.slots[3] 63 ∧ response (exec (.getcol 3 63) wide) = some (0, 1) := by decide
theorem witness_SetcolReplacesColumn :
    demo.slots[3].valid = false ∧ demo.slots[2].valid = true ∧ ¬ ColIn demo.slots[2] 4 ∧ ¬ ColIn demo.slots[2] (-1) ∧
    ColIn demo.slots[2] 3 ∧ (4 : Word).toNat ≠ demo.slots[2].rows.toNat ∧
    (3 : Word).toNat = demo.slots[2].rows.toNat ∧ ¬ Binary demoBad demoBad.slots[2].rows.toNat ∧
    Binary demo demo.slots[2].rows.toNat := by decide
theorem witness_SeqldLoadsOctet :
    response (exec (.seqld (-1) 1) demo) = some (2, 0) ∧ response (exec (.seqld 8 1) demo) = some (2, 0) ∧
    response (exec (.seqld 0 1) demo) = some (0, 0) ∧ response (exec (.seqld 7 1) demo) = some (0, 0) := by decide
theorem witness_RowAndColumnRoundTrips :
    SlotsCanonical demo ∧ (∃ t, exec (.setrow 2 2 true 4) demo = .next t ∧ t.rspStatus = 0) ∧
    ∃ t, exec (.setcol 2 3 true 3) demo = .next t ∧ t.rspStatus = 0 :=
  ⟨by decide, ⟨_, rfl, by decide⟩, _, rfl, by decide⟩
theorem witness_ElementsBeyondLengthUnread :
    let seq' : Vector Byte 64 := tabulate 64 fun e => ([1, 0, 1, 1, 9, 9] : List Byte).getD e 7
    (∀ e, e < demo.slots[2].cols.toNat → seqAt seq' e = seqAt demo.seq e) ∧
    (∀ e, e < demo.slots[2].rows.toNat → seqAt seq' e = seqAt demo.seq e) ∧ seq' ≠ demo.seq := by decide
theorem witness_LdseqLoadsSequence :
    sequenceOk [1] ∧ sequenceOk (List.replicate 64 1) ∧
    response (execAll (ldseq [0, 1, 1, 1, 1, 1, 1, 1, 1]) demo) = some (0, 0) := by decide
theorem witness_SequenceWritesReadBack :
    SlotsCanonical demo ∧ demo.slots[2].valid = true ∧ (∀ b ∈ ([1, 0, 1] : List Byte), b = 0 ∨ b = 1) ∧
    (∀ b ∈ ([1, 0, 1, 1] : List Byte), b = 0 ∨ b = 1) ∧
    RowIn demo.slots[2] 2 ∧ ([1, 0, 1, 1] : List Byte).length = demo.slots[2].cols.toNat ∧
    ColIn demo.slots[2] 3 ∧ ([1, 0, 1] : List Byte).length = demo.slots[2].rows.toNat := by decide
theorem witness_AddXorsEntries :
    demo.slots[3].valid = false ∧ demo.slots[0].valid = true ∧ demo.slots[2].valid = true ∧
    demo.slots[1].valid = true ∧ demo.slots[0].cols ≠ demo.slots[2].cols ∧
    demo.slots[0].rows = demo.slots[1].rows ∧ demo.slots[0].cols = demo.slots[1].cols := by decide
theorem witness_SubEqualsAdd :
    demo.slots[0].valid = true ∧ demo.slots[1].valid = true ∧ demo.slots[0].rows = demo.slots[1].rows ∧
    demo.slots[0].cols = demo.slots[1].cols := by decide
theorem witness_AddLawsHold : wide.slots[3].valid = true := by decide
theorem witness_MulTakesRowColumnParities :
    SlotsCanonical demo ∧ demo.slots[3].valid = false ∧ demo.slots[0].valid = true ∧ demo.slots[2].valid = true ∧
    demo.slots[2].cols ≠ demo.slots[0].rows ∧ demo.slots[0].cols = demo.slots[2].rows := by decide
theorem witness_MulIsMatrixProduct :
    SlotsCanonical demo ∧ demo.slots[0].valid = true ∧ demo.slots[2].valid = true ∧
    demo.slots[0].cols = demo.slots[2].rows := by decide
theorem witness_MatrixEqualityIsSlotEquality :
    demo.slots[0].valid = true ∧ demo.slots[1].valid = true ∧ demo.slots[0].canonical ∧ demo.slots[1].canonical := by
  decide
theorem witness_RankAnswersEngineCount :
    demo.slots[3].valid = false ∧ demo.slots[0].valid = true ∧
    ∀ k, k < 64 → (demo.setSlot 0 (Slot.zero 64 1)).slots[0].word k = 0 := by decide
theorem witness_PermutedIdentityHasFullRank :
    let m := slotOf 3 3 [2, 4, 1]
    let f := fun i => (i + 1) % 3
    m.canonical ∧ m.rows.toNat = 3 ∧ m.cols.toNat = 3 ∧ (∀ i, i < 3 → f i < 3 ∧ m.word i = 1#64 <<< f i) ∧
      (∀ i, i < 3 → ∀ j, j < 3 → f i = f j → i = j) := by decide
theorem witness_EliminationOrderIsIrrelevant :
    2 < 64 ∧ (rowAt (slotOf 3 3 [1, 3, 5]).w 0).getLsbD 0 = true ∧ [2, 0, 1].Nodup ∧
    (∀ q, q < 3 ↔ q ∈ [2, 0, 1]) :=
  ⟨by decide, by decide, by decide, fun q => by simp; omega⟩
theorem witness_RankEngineComputesMatrixRank : (slotOf 3 5 [0x11, 0x0E, 0x1F]).canonical := by decide

end Sys2Proof.Tests
end

section
/-! PROOF. No edge stops (R15, R220), and a run is the in-order atomic execution of its completed commands (R16, R62): a
command's answer depends on slots and SEQ alone, so it is the same on the state of the channel and on a state that has
never seen the channel. -/

namespace Sys2Proof.Machine

open Sys2Proof.Safety

/-! ### What a command word answers -/

/-- Every command word answers: a response with new slots and a new SEQ, and nothing else changes. -/
theorem runCommand_answers (w : CmdWord) (d : Word) (s : State) :
    ∃ slots seq st res, runCommand w d s = .next ({ s with slots := slots, seq := seq }.respond st res) := by
  rcases runCommand_cases w d s with ⟨-, h⟩ | ⟨i, -, h⟩
  · exact ⟨s.slots, s.seq, _, _, h⟩
  · rw [h]
    rcases exec_cases i s with ⟨st, -, h⟩ | ⟨slots, seq, res, h⟩
    · exact ⟨s.slots, s.seq, st, 0, h⟩
    · exact ⟨slots, seq, .ok, res, h⟩

/-- What an edge does to the store: reset it, complete the command in flight, or leave it and the response registers
alone. -/
theorem step_store_cases (s : State) :
    (s.pins.rst = true ∧ step s = .next s.advance.resetEdge) ∨
    (Completing s ∧ step s = runCommand s.cmdReg s.dataReg s.advance) ∨
    (¬ Completing s ∧ ∃ t, step s = .next t ∧ t.inputs = s.inputs.tail ∧ t.slots = s.slots ∧ t.seq = s.seq ∧
      t.rspStatus = s.rspStatus ∧ t.rspResult = s.rspResult) := by
  have hphase (hne : s.phase ≠ .busy) : ¬ Completing s := fun hc => hne hc.2.1
  rcases step_cases s with h | ⟨hr, h⟩
  · exact .inl h
  · rcases h with ⟨hp, -, h⟩ | ⟨hp, -, h⟩ | ⟨hp, hw, h⟩ | ⟨n, -, hw, h⟩ | ⟨hp, -, h⟩ | ⟨hp, -, h⟩
    case inr.inr.inr.inl => exact .inr (.inl ⟨⟨hr, hp, hw⟩, h⟩)
    case inr.inr.inr.inr.inl => exact .inr (.inr ⟨fun hc => by simp [hc.2.2] at hw, _, h, rfl, rfl, rfl, rfl, rfl⟩)
    all_goals exact .inr (.inr ⟨hphase (by simp [hp]), _, h, rfl, rfl, rfl, rfl, rfl⟩)

/-- Every edge has a next state, and consumes the input levels listed first and no others. -/
theorem step_next_inputs (s : State) : ∃ t, step s = .next t ∧ t.inputs = s.inputs.tail := by
  rcases step_store_cases s with ⟨-, h⟩ | ⟨-, h⟩ | ⟨-, t, h, hin, -⟩
  · exact ⟨_, h, rfl⟩
  · obtain ⟨slots, seq, st, res, ha⟩ := runCommand_answers s.cmdReg s.dataReg s.advance
    exact ⟨_, h.trans ha, rfl⟩
  · exact ⟨t, h, hin⟩

/-- Settles O8: the one edge that is not a next state by its rule runs a command, and every command answers. -/
theorem everyStepHasNextState : Obligations.EveryStepHasNextState := by
  intro s
  obtain ⟨t, ht, -⟩ := step_next_inputs s
  exact ⟨t, ht⟩

/-! ### A command's answer depends on slots and SEQ alone -/

/-- The two states agree in all that a command reads or writes: the slots and SEQ (R60, R64). -/
def SameStore (s t : State) : Prop := s.slots = t.slots ∧ s.seq = t.seq

/-- Both answer, with the same slots, the same SEQ and the same response presented. -/
def SameAnswer (r r' : Result) : Prop :=
  ∃ t u, r = .next t ∧ r' = .next u ∧ SameStore t u ∧ Answers t u.rspStatus u.rspResult

theorem sameAnswer_fail {s t : State} (h : SameStore s t) (st : Status) : SameAnswer (fail st s) (fail st t) :=
  ⟨_, _, rfl, rfl, h, rfl, rfl, rfl⟩

theorem sameAnswer_succeed {s t : State} (h : SameStore s t) (res : Word) :
    SameAnswer (succeed res s) (succeed res t) :=
  ⟨_, _, rfl, rfl, h, rfl, rfl, rfl⟩

theorem sameStore_setSlot {s t : State} (h : SameStore s t) (k : SlotNum) (m : Slot) :
    SameStore (s.setSlot k m) (t.setSlot k m) :=
  ⟨congrArg (·.set k m) h.1, h.2⟩

/-- A check whose failure answers `st`. -/
theorem sameAnswer_check {s t : State} (h : SameStore s t) {P : Prop} [Decidable P] (st : Status) {r r' : Result}
    (hr : SameAnswer r r') : SameAnswer (if P then fail st s else r) (if P then fail st t else r') := by
  split
  · exact sameAnswer_fail h st
  · exact hr

theorem sameAnswer_addSlots {s t : State} (h : SameStore s t) (md ma mb : SlotNum) :
    SameAnswer (addSlots md ma mb s) (addSlots md ma mb t) := by
  have hslot : ∀ k, s.slot k = t.slot k := fun k => congrArg (·[k]) h.1
  simp only [addSlots, hslot]
  exact sameAnswer_check h _ (sameAnswer_check h _ (sameAnswer_succeed (sameStore_setSlot h _ _) _))

/-- The same command on states that agree in slots and SEQ answers the same. -/
theorem exec_sameAnswer (i : Instr) {s t : State} (h : SameStore s t) : SameAnswer (exec i s) (exec i t) := by
  have hslot : ∀ k, s.slot k = t.slot k := fun k => congrArg (·[k]) h.1
  have hwrite := fun k m => sameAnswer_succeed (sameStore_setSlot h k m) 0
  cases i with
  | new md r c => exact sameAnswer_check h _ (hwrite md _)
  | newdef md => exact hwrite md _
  | get ma i j =>
    simp only [exec, execGet, hslot]
    exact sameAnswer_check h _ (sameAnswer_check h _ (sameAnswer_succeed h _))
  | set md i j v =>
    simp only [exec, execSet, hslot]
    exact sameAnswer_check h _ (sameAnswer_check h _ (sameAnswer_check h _ (hwrite md _)))
  | getrow ma i =>
    simp only [exec, execGetrow, hslot]
    exact sameAnswer_check h _ (sameAnswer_check h _ (sameAnswer_succeed h _))
  | setrow md i q d =>
    simp only [exec, execSetrow, hslot, h.2]
    exact sameAnswer_check h _ (sameAnswer_check h _ (sameAnswer_check h _ (sameAnswer_check h _
      (sameAnswer_check h _ (hwrite md _)))))
  | getcol ma j =>
    simp only [exec, execGetcol, hslot]
    exact sameAnswer_check h _ (sameAnswer_check h _ (sameAnswer_succeed h _))
  | setcol md j q d =>
    simp only [exec, execSetcol, hslot, h.2]
    exact sameAnswer_check h _ (sameAnswer_check h _ (sameAnswer_check h _ (sameAnswer_check h _
      (sameAnswer_check h _ (hwrite md _)))))
  | add md ma mb => exact sameAnswer_addSlots h md ma mb
  | sub md ma mb => exact sameAnswer_addSlots h md ma mb
  | mul md ma mb =>
    simp only [exec, execMul, hslot]
    exact sameAnswer_check h _ (sameAnswer_check h _ (hwrite md _))
  | rank ma =>
    simp only [exec, execRank, hslot]
    exact sameAnswer_check h _ (sameAnswer_succeed h _)
  | size ma =>
    simp only [exec, execSize, hslot]
    exact sameAnswer_check h _ (sameAnswer_succeed h _)
  | seqld k d =>
    have hload : SameStore { s with seq := seqLoad s.seq k.toNat d } { t with seq := seqLoad t.seq k.toNat d } :=
      ⟨h.1, congrArg (seqLoad · k.toNat d) h.2⟩
    exact sameAnswer_check h _ (sameAnswer_succeed hload _)
  | reservedE => exact sameAnswer_fail h _
  | reservedF => exact sameAnswer_fail h _

/-- The same command word on states that agree in slots and SEQ answers the same. -/
theorem runCommand_sameAnswer (w : CmdWord) (d : Word) {s t : State} (h : SameStore s t) :
    SameAnswer (runCommand w d s) (runCommand w d t) := by
  unfold runCommand
  split
  · exact exec_sameAnswer _ h
  · exact sameAnswer_fail h _

/-! ### Refinement -/

/-- Settles O18: a completing edge runs the command on the advanced state, which has the same slots and SEQ; every other
edge without reset writes only the channel. -/
theorem stepRefinesExec : Obligations.StepRefinesExec := by
  intro s t ht hrst
  rcases step_store_cases s with ⟨hr, -⟩ | ⟨hc, h⟩ | ⟨hc, t', h, -, hkeep⟩
  · simp [hr] at hrst
  · obtain ⟨t', u, ht', hu, ⟨hslots, hseq⟩, hans⟩ :=
      runCommand_sameAnswer s.cmdReg s.dataReg (s := s.advance) (t := s) ⟨rfl, rfl⟩
    cases ht.symm.trans (h.trans ht')
    exact .inl ⟨hc, u, hu, hslots, hseq, hans⟩
  · cases ht.symm.trans h
    exact .inr ⟨hc, hkeep⟩

theorem runEdges_succ {n : Nat} {s t : State} (ht : step s = .next t) : runEdges (n + 1) s = runEdges n t := by
  simp only [runEdges, ht]

theorem completed_succ_of_completing {n : Nat} {s t : State} (ht : step s = .next t) (hc : Completing s) :
    completed (n + 1) s = (s.cmdReg, s.dataReg) :: completed n t := by
  simp only [completed, ht, if_pos hc]

theorem completed_succ_of_not_completing {n : Nat} {s t : State} (ht : step s = .next t) (hc : ¬ Completing s) :
    completed (n + 1) s = completed n t := by
  simp only [completed, ht, if_neg hc]

theorem execWords_cons {w : CmdWord} {d : Word} {rest : List (CmdWord × Word)} {s t : State}
    (ht : runCommand w d s = .next t) : execWords ((w, d) :: rest) s = execWords rest t := by
  simp only [execWords, ht]

/-- The coming edge of a run without reset is no reset edge. -/
theorem pins_rst_of_take {n : Nat} {s : State} (h : ∀ p ∈ s.inputs.take (n + 1), p.rst = false) :
    s.pins.rst = false := by
  cases hl : s.inputs with
  | nil => simp [State.pins, hl, Pins.quiet]
  | cons p rest => simpa [State.pins, hl] using h p (by simp [hl])

/-- The edges of a run without reset after the coming one are a run without reset. -/
theorem take_tail_of_take {n : Nat} {l : List Pins} (h : ∀ p ∈ l.take (n + 1), p.rst = false) :
    ∀ p ∈ l.tail.take n, p.rst = false := by
  cases l with
  | nil => simp
  | cons q rest => exact fun p hp => h p (List.mem_cons_of_mem q hp)

/-- A run and the execution of its completed commands keep the same slots and SEQ, from states that agree in them. -/
theorem runEdges_refines_execWords (n : Nat) : ∀ s e : State, SameStore s e →
    (∀ p ∈ s.inputs.take n, p.rst = false) →
    ∃ t u, runEdges n s = .next t ∧ execWords (completed n s) e = .next u ∧ SameStore t u := by
  induction n with
  | zero => exact fun s e h _ => ⟨s, e, rfl, rfl, h⟩
  | succ n ih =>
    intro s e h hin
    obtain ⟨t, ht, htail⟩ := step_next_inputs s
    have hin' : ∀ p ∈ t.inputs.take n, p.rst = false := by
      rw [htail]
      exact take_tail_of_take hin
    rw [runEdges_succ ht]
    rcases stepRefinesExec s t ht (pins_rst_of_take hin) with ⟨hc, u, hu, hslots, hseq, -⟩ | ⟨hc, hslots, hseq, -⟩
    · obtain ⟨u', e', hu', he', hstore, -⟩ := runCommand_sameAnswer s.cmdReg s.dataReg h
      cases hu.symm.trans hu'
      rw [completed_succ_of_completing ht hc, execWords_cons he']
      exact ih t e' ⟨hslots.trans hstore.1, hseq.trans hstore.2⟩ hin'
    · rw [completed_succ_of_not_completing ht hc]
      exact ih t e ⟨hslots.trans h.1, hseq.trans h.2⟩ hin'

/-- Settles O19, from the run's refinement with the run's own start. -/
theorem runIsInOrderExecution : Obligations.RunIsInOrderExecution :=
  fun n s hin => runEdges_refines_execWords n s s ⟨rfl, rfl⟩ hin

end Sys2Proof.Machine
end

section
/-! PROOF. Equality of canonical slots (R14). -/

namespace Sys2Proof.Machine

open Sys2Proof.Safety

/-- Two canonical slots of one shape with equal entries inside it have equal words: outside it every bit is 0 (R24). -/
theorem word_eq_of_entries {a b : Slot} (ha : a.canonical) (hb : b.canonical) (hr : a.rows = b.rows)
    (hc : a.cols = b.cols) (he : ∀ i j, i < a.rows.toNat → j < a.cols.toNat → entry a i j = entry b i j) (i : Nat) :
    a.word i = b.word i := by
  have hina := ((canonical_iff a).1 ha).2 i
  have hinb := ((canonical_iff b).1 hb).2 i
  rw [← hr, ← hc] at hinb
  refine BitVec.eq_of_getLsbD_eq fun j _ => ?_
  by_cases hij : i < a.rows.toNat ∧ j < a.cols.toNat
  · exact he i j hij.1 hij.2
  · rw [Bool.eq_false_iff.2 (mt (hina j) hij), Bool.eq_false_iff.2 (mt (hinb j) hij)]

/-- Settles O50: with the words equal, every field of the two slots is. -/
theorem matrixEqualityIsSlotEquality : Obligations.MatrixEqualityIsSlotEquality := by
  intro a b hva hvb ha hb
  constructor
  · rintro ⟨hr, hc, he⟩
    have hw : a.w = b.w := words_ext fun k _ => word_eq_of_entries ha hb hr hc he k
    cases a
    cases b
    simp_all only
  · rintro rfl
    exact ⟨rfl, rfl, fun _ _ _ _ => rfl⟩

end Sys2Proof.Machine
end

section
/-! PROOF. The rank engine counts the linear-algebra rank (R208). The count of the column loop is the pivots found so far
plus the dimension of the span of the rows that no pivot has used: a column without a pivot leaves that span alone, and a
pivot step takes one dimension from it. -/

namespace Sys2Proof.Machine

open Sys2Proof.Safety

/-- The first `cols` bits of a word as a vector over GF(2) (R13). -/
def rowVec (cols : Nat) (v : Word) : Fin cols → ZMod 2 := fun j => if v.getLsbD j = true then 1 else 0

theorem rowVec_xor (cols : Nat) (a b : Word) : rowVec cols (a ^^^ b) = rowVec cols a + rowVec cols b := by
  funext j
  cases ha : a.getLsbD j <;> cases hb : b.getLsbD j <;> simp [rowVec, ha, hb, -BitVec.getLsbD_eq_getElem]
  decide

theorem rowVec_apply_eq_zero (cols : Nat) (v : Word) (j : Fin cols) : rowVec cols v j = 0 ↔ v.getLsbD j = false := by
  cases h : v.getLsbD j <;> simp [rowVec, h]

/-- The rows of a slot's matrix are its words. -/
theorem row_toMatrix (m : Slot) (r c : Nat) (i : Fin r) : (toMatrix m r c).row i = rowVec c (rowAt m.w i) := rfl

/-- The row space of rows `p..n-1`: when `p` pivots are found, the rows that are left to the engine. -/
def rowSpace (cols : Nat) (W : Vector Word 64) (p n : Nat) : Submodule (ZMod 2) (Fin cols → ZMod 2) :=
  Submodule.span (ZMod 2) ((fun k => rowVec cols (rowAt W k)) '' Set.Ico p n)

theorem rowVec_mem_rowSpace (cols : Nat) (W : Vector Word 64) {p n k : Nat} (h1 : p ≤ k) (h2 : k < n) :
    rowVec cols (rowAt W k) ∈ rowSpace cols W p n :=
  Submodule.subset_span ⟨k, ⟨h1, h2⟩, rfl⟩

theorem rowSpace_le {cols : Nat} {W : Vector Word 64} {p n : Nat} {S : Submodule (ZMod 2) (Fin cols → ZMod 2)}
    (h : ∀ k, p ≤ k → k < n → rowVec cols (rowAt W k) ∈ S) : rowSpace cols W p n ≤ S := by
  refine Submodule.span_le.2 ?_
  rintro _ ⟨k, ⟨h1, h2⟩, rfl⟩
  exact h k h1 h2

/-- The rank of a slot's matrix is the dimension of the space of all its rows. -/
theorem rank_toMatrix (m : Slot) (r c : Nat) :
    (toMatrix m r c).rank = Module.finrank (ZMod 2) (rowSpace c m.w 0 r) := by
  have hrange : Set.range (toMatrix m r c).row = (fun k => rowVec c (rowAt m.w k)) '' Set.Ico 0 r := by
    ext v
    constructor
    · rintro ⟨i, rfl⟩
      exact ⟨i, ⟨Nat.zero_le _, i.isLt⟩, rfl⟩
    · rintro ⟨k, ⟨-, hk⟩, rfl⟩
      exact ⟨⟨k, hk⟩, rfl⟩
  rw [Matrix.rank_eq_finrank_span_row, hrange, rowSpace]

/-- Rows `p..n-1` hold no bit below column `c`. -/
def ClearedBelow (c : Nat) (W : Vector Word 64) (p n : Nat) : Prop :=
  ∀ k, p ≤ k → k < n → ∀ j, j < c → (rowAt W k).getLsbD j = false

theorem clearedBelow_zero (W : Vector Word 64) (p n : Nat) : ClearedBelow 0 W p n :=
  fun _ _ _ _ hj => absurd hj (Nat.not_lt_zero _)

theorem clearedBelow_succ {c : Nat} {W : Vector Word 64} {p n : Nat} (h : ClearedBelow c W p n)
    (hc : ∀ k, p ≤ k → k < n → (rowAt W k).getLsbD c = false) : ClearedBelow (c + 1) W p n := by
  intro k h1 h2 j hj
  rcases Nat.lt_succ_iff_lt_or_eq.1 hj with hj | rfl
  · exact h k h1 h2 j hj
  · exact hc k h1 h2

/-- Rows with no bit in any column span nothing. -/
theorem rowSpace_eq_bot {cols : Nat} {W : Vector Word 64} {p n : Nat} (h : ClearedBelow cols W p n) :
    rowSpace cols W p n = ⊥ := by
  refine le_bot_iff.1 (rowSpace_le fun k h1 h2 => ?_)
  rw [Submodule.mem_bot]
  funext j
  exact (rowVec_apply_eq_zero cols _ j).2 (h k h1 h2 j j.isLt)

/-! ### The swap -/

/-- The exchange moves a row among rows `p..n-1` only. -/
theorem rowAt_swapRows_of_mem (W : Vector Word 64) {p r n k : Nat} (hn : n ≤ 64) (hr : p ≤ r ∧ r < n)
    (hk : p ≤ k ∧ k < n) : ∃ q, p ≤ q ∧ q < n ∧ rowAt (swapRows W p r) k = rowAt W q := by
  rw [rowAt_swapRows W p r k (by omega)]
  split
  · exact ⟨r, hr.1, hr.2, rfl⟩
  · split
    · exact ⟨p, le_refl p, by omega, rfl⟩
    · exact ⟨k, hk.1, hk.2, rfl⟩

theorem swapRows_swapRows (W : Vector Word 64) {p r : Nat} (hp : p < 64) (hr : r < 64) :
    swapRows (swapRows W p r) p r = W := by
  refine words_ext fun k hk => ?_
  rw [rowAt_swapRows _ p r k hk, rowAt_swapRows W p r p hp, rowAt_swapRows W p r r hr, rowAt_swapRows W p r k hk]
  by_cases hkp : k = p <;> by_cases hkr : k = r <;> simp_all

theorem rowSpace_swapRows_le (cols : Nat) (W : Vector Word 64) {p r n : Nat} (hn : n ≤ 64) (hr : p ≤ r ∧ r < n) :
    rowSpace cols (swapRows W p r) p n ≤ rowSpace cols W p n :=
  rowSpace_le fun k h1 h2 => by
    obtain ⟨q, hq1, hq2, hq⟩ := rowAt_swapRows_of_mem W hn hr ⟨h1, h2⟩
    rw [hq]
    exact rowVec_mem_rowSpace cols W hq1 hq2

/-- The exchange of R203 keeps the space of the rows that are left. -/
theorem rowSpace_swapRows (cols : Nat) (W : Vector Word 64) {p r n : Nat} (hn : n ≤ 64) (hr : p ≤ r ∧ r < n) :
    rowSpace cols (swapRows W p r) p n = rowSpace cols W p n := by
  refine le_antisymm (rowSpace_swapRows_le cols W hn hr) ?_
  have h := rowSpace_swapRows_le cols (swapRows W p r) hn hr
  rwa [swapRows_swapRows W (by omega) (by omega)] at h

theorem clearedBelow_swapRows {c : Nat} {W : Vector Word 64} {p r n : Nat} (hn : n ≤ 64) (hr : p ≤ r ∧ r < n)
    (h : ClearedBelow c W p n) : ClearedBelow c (swapRows W p r) p n := by
  intro k h1 h2
  obtain ⟨q, hq1, hq2, hq⟩ := rowAt_swapRows_of_mem W hn hr ⟨h1, h2⟩
  rw [hq]
  exact h q hq1 hq2

/-! ### The elimination -/

/-- A row below the pivot row is kept where its bit is clear, and the pivot row is added to it where its bit is set. -/
theorem rowAt_eliminate_cases (W : Vector Word 64) (c : Nat) {p n k : Nat} (hn : n ≤ 64) (h1 : p < k) (h2 : k < n) :
    ((rowAt W k).getLsbD c = false ∧ rowAt (eliminate W c p n) k = rowAt W k) ∨
    ((rowAt W k).getLsbD c = true ∧ rowAt (eliminate W c p n) k = rowAt W k ^^^ rowAt W p) := by
  rw [rowAt_eliminate W c p n k (by omega)]
  cases h : (rowAt W k).getLsbD c with
  | false => exact .inl ⟨rfl, by simp⟩
  | true => exact .inr ⟨rfl, by rw [if_pos ⟨h2, by omega, rfl⟩]⟩

/-- The elimination clears the pivot's column in the rows below the pivot row. -/
theorem clearedBelow_eliminate {c : Nat} {W : Vector Word 64} {p n : Nat} (hn : n ≤ 64) (hp : p < n)
    (hb : (rowAt W p).getLsbD c = true) (h : ClearedBelow c W p n) :
    ClearedBelow (c + 1) (eliminate W c p n) (p + 1) n := by
  refine clearedBelow_succ (fun k h1 h2 j hj => ?_) fun k h1 h2 => ?_
  · have hk := h k (by omega) h2 j hj
    have hpj := h p (le_refl p) hp j hj
    rcases rowAt_eliminate_cases W c hn h1 h2 with ⟨-, e⟩ | ⟨-, e⟩ <;> rw [e]
    · exact hk
    · rw [BitVec.getLsbD_xor, hk, hpj]; rfl
  · rcases rowAt_eliminate_cases W c hn h1 h2 with ⟨hk, e⟩ | ⟨hk, e⟩ <;> rw [e]
    · exact hk
    · rw [BitVec.getLsbD_xor, hk, hb]; rfl

/-- The rows left before an elimination span what the pivot row and the rows left after it span. -/
theorem rowSpace_eq_eliminate_sup (cols : Nat) (W : Vector Word 64) (c : Nat) {p n : Nat} (hn : n ≤ 64) (hp : p < n) :
    rowSpace cols W p n =
      rowSpace cols (eliminate W c p n) (p + 1) n ⊔ Submodule.span (ZMod 2) {rowVec cols (rowAt W p)} := by
  have hpiv : rowVec cols (rowAt W p) ∈ rowSpace cols W p n := rowVec_mem_rowSpace cols W (le_refl p) hp
  refine le_antisymm (rowSpace_le fun k h1 h2 => ?_)
    (sup_le (rowSpace_le fun k h1 h2 => ?_) ((Submodule.span_singleton_le_iff_mem _ _).2 hpiv))
  · have hpiv' := Submodule.mem_sup_right (S := rowSpace cols (eliminate W c p n) (p + 1) n)
      (Submodule.mem_span_singleton_self (R := ZMod 2) (rowVec cols (rowAt W p)))
    rcases Nat.eq_or_lt_of_le h1 with rfl | h1
    · exact hpiv'
    · have hk := Submodule.mem_sup_left (T := Submodule.span (ZMod 2) {rowVec cols (rowAt W p)})
        (rowVec_mem_rowSpace cols (eliminate W c p n) h1 h2)
      rcases rowAt_eliminate_cases W c hn h1 h2 with ⟨-, e⟩ | ⟨-, e⟩ <;> rw [e] at hk
      · exact hk
      · rw [rowVec_xor] at hk
        exact (Submodule.add_mem_iff_left _ hpiv').1 hk
  · have hk := rowVec_mem_rowSpace cols W (Nat.le_of_succ_le h1) h2
    rcases rowAt_eliminate_cases W c hn h1 h2 with ⟨-, e⟩ | ⟨-, e⟩ <;> rw [e]
    · exact hk
    · rw [rowVec_xor]
      exact Submodule.add_mem _ hk hpiv

/-- Rows with no bit in column `c` do not span a row that has it. -/
theorem rowVec_notMem_rowSpace {cols c : Nat} {W : Vector Word 64} {p n : Nat} {v : Word} (hc : c < cols)
    (hv : v.getLsbD c = true) (h : ClearedBelow (c + 1) W p n) : rowVec cols v ∉ rowSpace cols W p n := by
  intro hmem
  have hle : rowSpace cols W p n ≤ LinearMap.ker (LinearMap.proj (R := ZMod 2) (⟨c, hc⟩ : Fin cols)) :=
    rowSpace_le fun k h1 h2 => (rowVec_apply_eq_zero cols _ ⟨c, hc⟩).2 (h k h1 h2 c (Nat.lt_succ_self c))
  have := (rowVec_apply_eq_zero cols v ⟨c, hc⟩).1 (hle hmem)
  simp [hv] at this

/-- A pivot step takes one dimension from the space of the rows that are left. -/
theorem finrank_rowSpace_eliminate {cols c : Nat} {W : Vector Word 64} {p n : Nat} (hn : n ≤ 64) (hp : p < n)
    (hc : c < cols) (hb : (rowAt W p).getLsbD c = true) (h : ClearedBelow c W p n) :
    Module.finrank (ZMod 2) (rowSpace cols W p n) =
      Module.finrank (ZMod 2) (rowSpace cols (eliminate W c p n) (p + 1) n) + 1 := by
  rw [rowSpace_eq_eliminate_sup cols W c hn hp]
  exact Submodule.finrank_sup_span_singleton (rowVec_notMem_rowSpace hc hb (clearedBelow_eliminate hn hp hb h))

/-! ### The column loop -/

/-- The loop adds the dimension of the space of the rows that are left. The early exit of R205 loses nothing: with
`min n cols` pivots found, no row or no column is left. -/
theorem rankFrom_eq_add_finrank {n cols : Nat} (hn : n ≤ 64) (k : Nat) : ∀ (c : Nat) (W : Vector Word 64) (p : Nat),
    c + k = cols → p ≤ c → ClearedBelow c W p n →
    rankFrom n (min n cols) k c W p = p + Module.finrank (ZMod 2) (rowSpace cols W p n) := by
  induction k with
  | zero =>
    intro c W p hck _ hcl
    obtain rfl : c = cols := hck
    rw [rankFrom, rowSpace_eq_bot hcl, finrank_bot, Nat.add_zero]
  | succ k ih =>
    intro c W p hck hpc hcl
    rw [rankFrom]
    cases hpiv : pivot W c p n with
    | none =>
      exact ih (c + 1) W p (by omega) (by omega) (clearedBelow_succ hcl ((pivot_none W c p n).1 hpiv))
    | some r =>
      obtain ⟨hpr, hrn, hbit, -⟩ := pivot_some W c p n r hpiv
      have hp : p < n := by omega
      have hbit' : (rowAt (swapRows W p r) p).getLsbD c = true := by
        rwa [rowAt_swapRows W p r p (by omega), if_pos rfl]
      have hcl' := clearedBelow_swapRows hn ⟨hpr, hrn⟩ hcl
      have hnext := clearedBelow_eliminate hn hp hbit' hcl'
      rw [← rowSpace_swapRows cols W hn ⟨hpr, hrn⟩, finrank_rowSpace_eliminate hn hp (by omega) hbit' hcl']
      dsimp only
      split
      · next hlim =>
        have hall : ClearedBelow cols (eliminate (swapRows W p r) c p n) (p + 1) n := fun q h1 h2 j hj =>
          hnext q h1 h2 j (by omega)
        rw [rowSpace_eq_bot hall, finrank_bot]
      · rw [ih (c + 1) _ (p + 1) (by omega) (by omega) hnext]
        omega

/-- The engine's count is the dimension of the slot's row space. -/
theorem rankEng_eq_finrank (m : Slot) (h : m.rows.toNat ≤ 64) :
    rankEng m = Module.finrank (ZMod 2) (rowSpace m.cols.toNat m.w 0 m.rows.toNat) := by
  rw [rankEng, rankFrom_eq_add_finrank h _ 0 m.w 0 (Nat.zero_add _) (le_refl 0) (clearedBelow_zero m.w 0 _),
    Nat.zero_add]

/-- Settles O55: the engine's count and the matrix rank are both the dimension of the row space. -/
theorem rankEngineComputesMatrixRank : Obligations.RankEngineComputesMatrixRank := by
  rintro m ⟨-, hrows, -⟩
  rw [rankEng_eq_finrank m hrows, rank_toMatrix]

end Sys2Proof.Machine
end

section
/-! PROOF. What a command writes, said once: nothing, one slot, or SEQ, and which of them its row allows. The slot
invariant (R24), the frames (R20, R26, R27) and the indistinguishability of empty slots (R23, R30) are read off it. -/

namespace Sys2Proof.Machine

open Sys2Proof.Safety

/-! ### Writes of the store -/

/-- All that one command writes of the store, its response apart. -/
inductive StoreWrite where
  | nothing
  | slot (md : SlotNum) (m : Slot)
  | seq (q : Vector Byte 64)

/-- The state with that written. -/
def State.write (s : State) : StoreWrite → State
  | .nothing => s
  | .slot md m => s.setSlot md m
  | .seq q => { s with seq := q }

/-- The command answers a response and writes that of the store and nothing else. -/
def AnswersWriting (r : Result) (s : State) (w : StoreWrite) (st : Status) (res : Word) : Prop :=
  r = .next ((s.write w).respond st res)

theorem keepsChannel_write (s : State) (w : StoreWrite) : KeepsChannel s (s.write w) := by
  cases w <;> exact ⟨rfl, rfl, rfl, rfl, rfl⟩

/-- The writes open to a command: its created slot with a canonical matrix, its modified slot with a canonical matrix of
the shape it had, and SEQ if it is SEQLD. That the matrix is canonical needs that the slots before it were (R24). -/
inductive MayWrite (i : Instr) (s : State) : StoreWrite → Prop where
  | nothing : MayWrite i s .nothing
  | create (md : SlotNum) (m : Slot) (hi : createdSlot i = some md) (hm : SlotsCanonical s → m.canonical) :
      MayWrite i s (.slot md m)
  | modify (md : SlotNum) (m : Slot) (hi : writtenSlot i = some md) (hs : SameShape m (s.slot md))
      (hm : SlotsCanonical s → m.canonical) : MayWrite i s (.slot md m)
  | load (k : Int) (d : Word) (q : Vector Byte 64) (hi : i = .seqld k d) : MayWrite i s (.seq q)

/-- The slot a command creates is a slot it writes. -/
theorem writtenSlot_of_createdSlot {i : Instr} {md : SlotNum} (h : createdSlot i = some md) :
    writtenSlot i = some md := by
  cases i with
  | new | newdef | add | sub | mul => exact h
  | get | set | getrow | setrow | getcol | setcol | rank | size | seqld | reservedE | reservedF => cases h

theorem writtenSlot_of_readsOnly {i : Instr} (h : readsOnly i = true) : writtenSlot i = none := by
  cases i with
  | get | getrow | getcol | rank | size => rfl
  | new | newdef | set | setrow | setcol | add | sub | mul | seqld | reservedE | reservedF => cases h

/-- A write open to a command leaves every slot but the one it is to write. -/
theorem MayWrite.slots_eq {i : Instr} {s : State} {w : StoreWrite} (h : MayWrite i s w) {k : SlotNum}
    (hk : writtenSlot i ≠ some k) : (s.write w).slots[k] = s.slots[k] := by
  have hother (md : SlotNum) (m : Slot) (hi : writtenSlot i = some md) :
      (s.write (.slot md m)).slots[k] = s.slots[k] := by
    have hne : k ≠ md := fun he => hk (he ▸ hi)
    exact slot_setSlot_ne s md k m hne
  cases h with
  | nothing => rfl
  | create md m hi => exact hother md m (writtenSlot_of_createdSlot hi)
  | modify md m hi => exact hother md m hi
  | load => rfl

/-- A write open to a command other than SEQLD leaves SEQ. -/
theorem MayWrite.seq_eq {i : Instr} {s : State} {w : StoreWrite} (h : MayWrite i s w)
    (hi : ∀ k d, i ≠ .seqld k d) : (s.write w).seq = s.seq := by
  cases h with
  | nothing | create | modify => rfl
  | load k d q he => exact absurd he (hi k d)

/-- A write open to a command keeps the shape of every slot that the command does not create. -/
theorem MayWrite.sameShape {i : Instr} {s : State} {w : StoreWrite} (h : MayWrite i s w) {k : SlotNum}
    (hk : createdSlot i ≠ some k) : SameShape ((s.write w).slot k) (s.slot k) := by
  cases h with
  | nothing | load => exact ⟨rfl, rfl, rfl⟩
  | create md m hi =>
    have hne : k ≠ md := fun he => hk (he ▸ hi)
    rw [State.write, slot_setSlot_ne s md k m hne]
    exact ⟨rfl, rfl, rfl⟩
  | modify md m hi hs =>
    by_cases he : k = md
    · subst he
      rwa [State.write, slot_setSlot_self]
    · rw [State.write, slot_setSlot_ne s md k m he]
      exact ⟨rfl, rfl, rfl⟩

/-- A write open to a command keeps the slot invariant. -/
theorem MayWrite.slotsCanonical {i : Instr} {s : State} {w : StoreWrite} (h : MayWrite i s w)
    (hs : SlotsCanonical s) : SlotsCanonical (s.write w) := by
  have hset (md : SlotNum) (m : Slot) (hm : m.canonical) : SlotsCanonical (s.write (.slot md m)) := by
    intro k
    simp only [State.write, setSlot_slots, slots_set_getElem]
    split
    · exact fun _ => hm
    · exact hs k
  cases h with
  | nothing | load => exact hs
  | create md m _ hm => exact hset md m (hm hs)
  | modify md m _ _ hm => exact hset md m (hm hs)

/-! ### The matrices that commands write are canonical -/

/-- A dimension that NEW accepts is read back from its 7 bits. -/
theorem toNat_ofInt_dim {r : Int} (h1 : 1 ≤ r) (h2 : r ≤ 64) : ((BitVec.ofInt 7 r).toNat : Int) = r := by
  rw [BitVec.toNat_ofInt]
  omega

theorem zero_ofInt_canonical {r c : Int} (h : dimOk r c) :
    (Slot.zero (BitVec.ofInt 7 r) (BitVec.ofInt 7 c)).canonical := by
  obtain ⟨⟨hr1, hr2⟩, hc1, hc2⟩ := h
  have hr := toNat_ofInt_dim hr1 hr2
  have hc := toNat_ofInt_dim hc1 hc2
  exact zero_canonical _ _ (by omega) (by omega) (by omega) (by omega)

/-- SET at an entry of the matrix. -/
theorem setWord_brep_canonical {m : Slot} (hm : m.canonical) {i j : Nat} (hi : i < m.rows.toNat)
    (hj : j < m.cols.toNat) (v : Bool) : (m.setWord i (brep (m.word i) j v)).canonical := by
  refine setWord_canonical m hm i _ hi fun l hl => ?_
  rw [getLsbD_brep _ _ _ _ (BitVec.lt_of_getLsbD hl)] at hl
  split at hl
  · next he => exact he ▸ hj
  · exact (((canonical_iff m).1 hm).2 i l hl).2

/-- SETROW at a row of the matrix. -/
theorem setWord_seqPack_canonical {m : Slot} (hm : m.canonical) {i : Nat} (hi : i < m.rows.toNat)
    (q : Vector Byte 64) : (m.setWord i (seqPack q m.cols.toNat)).canonical := by
  refine setWord_canonical m hm i _ hi fun l hl => ?_
  simp only [getLsbD_seqPack, Bool.and_eq_true, decide_eq_true_eq] at hl
  exact hl.1.1

/-! ### Every command -/

/-- The command answers, and writes of the store what is open to it. -/
def AnswersAllowed (i : Instr) (s : State) (r : Result) : Prop :=
  ∃ w st res, AnswersWriting r s w st res ∧ MayWrite i s w

section
variable {i : Instr} {s : State} {r : Result} {md : SlotNum} {m : Slot}

theorem answersAllowed_of_failsWith (h : FailsWith r s) : AnswersAllowed i s r := by
  obtain ⟨st, -, h⟩ := h
  exact ⟨.nothing, st, 0, h, .nothing⟩

theorem answersAllowed_of_read {res : Word} (h : r = .next (s.respond .ok res)) : AnswersAllowed i s r :=
  ⟨.nothing, .ok, res, h, .nothing⟩

theorem answersAllowed_of_create (h : WritesSlot r s md m) (hi : createdSlot i = some md)
    (hm : SlotsCanonical s → m.canonical) : AnswersAllowed i s r :=
  ⟨.slot md m, .ok, 0, h, .create md m hi hm⟩

theorem answersAllowed_of_modify (h : WritesSlot r s md m) (hi : writtenSlot i = some md)
    (hs : SameShape m (s.slot md)) (hm : SlotsCanonical s → m.canonical) : AnswersAllowed i s r :=
  ⟨.slot md m, .ok, 0, h, .modify md m hi hs hm⟩

end

theorem slot_canonical {s : State} (hs : SlotsCanonical s) {k : SlotNum} (hv : (s.slot k).valid = true) :
    (s.slot k).canonical := hs k hv

/-- ADD and SUB, under the one rule of R182. -/
theorem addSlots_allowed {i : Instr} {md : SlotNum} (hi : createdSlot i = some md) (ma mb : SlotNum) (s : State) :
    AnswersAllowed i s (addSlots md ma mb s) := by
  rcases addSlots_cases md ma mb s with h | ⟨ha, hb, ⟨hr, hc⟩, h⟩
  · exact answersAllowed_of_failsWith h
  · exact answersAllowed_of_create h hi fun hs =>
      xorSlots_canonical _ _ (slot_canonical hs ha) (slot_canonical hs hb) hr hc

/-- Every command answers, and writes of the store what is open to it. -/
theorem exec_allowed (i : Instr) (s : State) : AnswersAllowed i s (exec i s) := by
  cases i with
  | new md r c =>
    rcases execNew_cases md r c s with ⟨-, h⟩ | ⟨hd, h⟩
    · exact answersAllowed_of_failsWith h
    · exact answersAllowed_of_create h rfl fun _ => zero_ofInt_canonical hd
  | newdef md =>
    exact answersAllowed_of_create (execNewdef_cases md s) rfl fun _ =>
      zero_canonical 64 64 (by decide) (by decide) (by decide) (by decide)
  | get ma i j =>
    rcases execGet_cases ma i j s with h | ⟨-, -, -, h⟩
    · exact answersAllowed_of_failsWith h
    · exact answersAllowed_of_read h
  | set md i j v =>
    rcases execSet_cases md i j v s with h | ⟨hv, hi, hj, -, h⟩
    · exact answersAllowed_of_failsWith h
    · exact answersAllowed_of_modify h rfl ⟨rfl, rfl, rfl⟩ fun hs =>
        setWord_brep_canonical (slot_canonical hs hv) (by omega) (by omega) _
  | getrow ma i =>
    rcases execGetrow_cases ma i s with h | ⟨-, -, h⟩
    · exact answersAllowed_of_failsWith h
    · exact answersAllowed_of_read h
  | setrow md i q d =>
    rcases execSetrow_cases md i q d s with h | ⟨hv, hi, -, -, -, h⟩
    · exact answersAllowed_of_failsWith h
    · exact answersAllowed_of_modify h rfl ⟨rfl, rfl, rfl⟩ fun hs =>
        setWord_seqPack_canonical (slot_canonical hs hv) (by omega) _
  | getcol ma j =>
    rcases execGetcol_cases ma j s with h | ⟨-, -, h⟩
    · exact answersAllowed_of_failsWith h
    · exact answersAllowed_of_read h
  | setcol md j q d =>
    rcases execSetcol_cases md j q d s with h | ⟨hv, hj, -, -, -, h⟩
    · exact answersAllowed_of_failsWith h
    · exact answersAllowed_of_modify h rfl ⟨rfl, rfl, rfl⟩ fun hs =>
        colSet_canonical _ _ (slot_canonical hs hv) _ (by omega)
  | add md ma mb => exact addSlots_allowed rfl ma mb s
  | sub md ma mb => exact addSlots_allowed rfl ma mb s
  | mul md ma mb =>
    rcases execMul_cases md ma mb s with h | ⟨ha, hb, -, h⟩
    · exact answersAllowed_of_failsWith h
    · exact answersAllowed_of_create h rfl fun hs =>
        mulSlots_canonical _ _ (slot_canonical hs ha) (slot_canonical hs hb)
  | rank ma =>
    rcases execRank_cases ma s with h | ⟨-, h⟩
    · exact answersAllowed_of_failsWith h
    · exact answersAllowed_of_read h
  | size ma =>
    rcases execSize_cases ma s with h | ⟨-, h⟩
    · exact answersAllowed_of_failsWith h
    · exact answersAllowed_of_read h
  | seqld k d =>
    rcases execSeqld_cases k d s with h | ⟨-, h⟩
    · exact answersAllowed_of_failsWith h
    · exact ⟨.seq _, _, _, h, .load k d _ rfl⟩
  | reservedE => exact answersAllowed_of_failsWith (failsWith_fail s _ (by decide))
  | reservedF => exact answersAllowed_of_failsWith (failsWith_fail s _ (by decide))

/-- Settles O24: the frame of the writes open to the command. -/
theorem commandsWriteOnlyTheirDestination : Obligations.CommandsWriteOnlyTheirDestination := by
  intro i s
  obtain ⟨w, st, res, h, hw⟩ := exec_allowed i s
  exact ⟨_, h, keepsChannel_write s w, fun _ hk => hw.slots_eq hk, hw.seq_eq⟩

/-! ### Every edge -/

/-- What an edge leaves in the store: the reset values, the old store, or the old store with a write open to the command
that completes. -/
theorem step_store_writes {s t : State} (ht : step s = .next t) :
    (s.pins.rst = true ∧ t.slots = Vector.replicate 4 Slot.afterReset) ∨
    (t.slots = s.slots ∧ t.seq = s.seq) ∨
    (Completing s ∧ ∃ i w, decode s.cmdReg s.dataReg = .ok i ∧ MayWrite i s.advance w ∧
      t.slots = (s.advance.write w).slots ∧ t.seq = (s.advance.write w).seq) := by
  rcases step_store_cases s with ⟨hr, h⟩ | ⟨hc, h⟩ | ⟨-, t', h, -, hslots, hseq, -⟩
  · cases ht.symm.trans h
    exact .inl ⟨hr, rfl⟩
  · rcases runCommand_cases s.cmdReg s.dataReg s.advance with ⟨-, hrun⟩ | ⟨i, hi, hrun⟩
    · cases ht.symm.trans (h.trans hrun)
      exact .inr (.inl ⟨rfl, rfl⟩)
    · obtain ⟨w, st, res, hx, hw⟩ := exec_allowed i s.advance
      cases ht.symm.trans (h.trans (hrun.trans hx))
      exact .inr (.inr ⟨hc, i, w, hi, hw, rfl, rfl⟩)
  · cases ht.symm.trans h
    exact .inr (.inl ⟨hslots, hseq⟩)

/-- After reset every slot is empty (R30). -/
theorem reset_slot_empty (k : SlotNum) : (Vector.replicate 4 Slot.afterReset)[k].valid = false := by
  simp [Slot.afterReset]

/-- The slot invariant speaks of the slot file alone. -/
theorem slotsCanonical_congr {s t : State} (h : t.slots = s.slots) (hs : SlotsCanonical s) : SlotsCanonical t := by
  intro k
  rw [h]
  exact hs k

/-- Settles O17: a reset edge empties every slot, and every other edge leaves the slots or makes a write open to the
completing command, which keeps the invariant. -/
theorem stepKeepsSlotsCanonical : Obligations.StepKeepsSlotsCanonical := by
  intro s t hs ht
  rcases step_store_writes ht with ⟨-, h⟩ | ⟨h, -⟩ | ⟨-, i, w, -, hw, h, -⟩
  · intro k hv
    rw [h, reset_slot_empty] at hv
    cases hv
  · exact slotsCanonical_congr h hs
  · exact slotsCanonical_congr h (hw.slotsCanonical hs)

/-- Settles O25: of the writes open to a command only that of the created slot changes a shape, and a reader has no slot to
write. -/
theorem shapesChangeOnlyByCreation : Obligations.ShapesChangeOnlyByCreation := by
  refine ⟨fun s t k ht hne => ?_, fun i s hi => ?_⟩
  · rcases step_store_writes ht with ⟨hr, -⟩ | ⟨h, -⟩ | ⟨hc, i, w, hi, hw, h, -⟩
    · exact .inl hr
    · rw [h] at hne
      exact absurd ⟨rfl, rfl, rfl⟩ hne
    · rw [h] at hne
      exact .inr ⟨hc, i, hi, by_contra fun hk => hne (hw.sameShape hk)⟩
  · obtain ⟨t, ht, -, hslots, -⟩ := commandsWriteOnlyTheirDestination i s
    refine ⟨t, ht, Vector.ext fun k hk => hslots ⟨k, hk⟩ ?_⟩
    simp [writtenSlot_of_readsOnly hi]

/-- Settles O26: of the writes open to a command only SEQLD's is to SEQ. -/
theorem seqChangesOnlyBySeqld : Obligations.SeqChangesOnlyBySeqld := by
  intro s t ht hne
  rcases step_store_writes ht with ⟨hr, -⟩ | ⟨-, h⟩ | ⟨hc, i, w, hi, hw, -, h⟩
  · exact .inl hr
  · exact absurd h hne
  · refine .inr ⟨hc, ?_⟩
    by_contra hnot
    have hkeep := hw.seq_eq fun k d he => hnot ⟨k, d, he ▸ hi⟩
    exact hne (h.trans hkeep)

/-- Settles O16: every slot is empty after reset, so the invariant asks nothing of it; the phase is IDLE and no reset level
is listed. -/
theorem resetIsCanonicalAndReady : Obligations.ResetIsCanonicalAndReady := by
  refine ⟨fun k hv => ?_, reset_slot_empty, rfl⟩
  cases (reset_slot_empty k).symm.trans hv

end Sys2Proof.Machine
end

section
/-! PROOF. An empty slot fails the commands that read it (R23), and what it holds is seen by none (R30): a command's response
and its write are a function of its operand slots and SEQ, so they are the same whatever the other slots hold. -/

namespace Sys2Proof.Machine

open Sys2Proof.Safety

/-! ### An empty operand -/

theorem addSlots_of_empty {md ma mb : SlotNum} {s : State} (h : (s.slot ma).valid = false ∨ (s.slot mb).valid = false) :
    addSlots md ma mb s = fail .slotEmpty s := if_pos h

theorem execMul_of_empty {md ma mb : SlotNum} {s : State} (h : (s.slot ma).valid = false ∨ (s.slot mb).valid = false) :
    execMul md ma mb s = fail .slotEmpty s := if_pos h

/-- One of two operand slots is the empty slot `k`. -/
theorem empty_of_mem_pair {s : State} {k ma mb : SlotNum} (hk : k ∈ [ma, mb]) (he : (s.slot k).valid = false) :
    (s.slot ma).valid = false ∨ (s.slot mb).valid = false := by
  rcases List.mem_pair.1 hk with rfl | rfl
  · exact .inl he
  · exact .inr he

/-- The first check of every command with operands is that none is empty (R224). -/
theorem exec_of_empty_operand (i : Instr) (s : State) (k : SlotNum) (hk : k ∈ operandSlots i)
    (he : (s.slot k).valid = false) : exec i s = fail .slotEmpty s := by
  cases i with
  | new | newdef | seqld | reservedE | reservedF => cases hk
  | get | set | getrow | setrow | getcol | setcol | rank | size =>
    cases List.mem_singleton.1 hk
    exact if_pos he
  | add md ma mb => exact addSlots_of_empty (empty_of_mem_pair hk he)
  | sub md ma mb => exact addSlots_of_empty (empty_of_mem_pair hk he)
  | mul md ma mb => exact execMul_of_empty (empty_of_mem_pair hk he)

/-! ### A command's response and write depend on its operands alone -/

/-- Both answer the same response and write the same of the store. -/
def SameWrite (s s' : State) (r r' : Result) : Prop :=
  ∃ w st res, AnswersWriting r s w st res ∧ AnswersWriting r' s' w st res

theorem sameWrite_fail (s s' : State) (st : Status) : SameWrite s s' (fail st s) (fail st s') :=
  ⟨.nothing, st, 0, rfl, rfl⟩

theorem sameWrite_succeed (s s' : State) (w : StoreWrite) (res : Word) :
    SameWrite s s' (succeed res (s.write w)) (succeed res (s'.write w)) :=
  ⟨w, .ok, res, rfl, rfl⟩

/-- A check whose failure answers `st`. -/
theorem sameWrite_check {s s' : State} {P : Prop} [Decidable P] (st : Status) {r r' : Result}
    (h : SameWrite s s' r r') : SameWrite s s' (if P then fail st s else r) (if P then fail st s' else r') := by
  split
  · exact sameWrite_fail s s' st
  · exact h

theorem sameWrite_addSlots {s s' : State} (md : SlotNum) {ma mb : SlotNum} (ha : s.slot ma = s'.slot ma)
    (hb : s.slot mb = s'.slot mb) : SameWrite s s' (addSlots md ma mb s) (addSlots md ma mb s') := by
  simp only [addSlots, ha, hb]
  exact sameWrite_check _ (sameWrite_check _ (sameWrite_succeed s s' (.slot md _) 0))

/-- The same command on states that agree in its operand slots and in SEQ answers the same and writes the same. -/
theorem exec_sameWrite (i : Instr) {s s' : State} (hop : ∀ k ∈ operandSlots i, s.slot k = s'.slot k)
    (hseq : s.seq = s'.seq) : SameWrite s s' (exec i s) (exec i s') := by
  have hread := sameWrite_succeed s s' .nothing
  have hwrite := fun md m => sameWrite_succeed s s' (.slot md m) 0
  cases i with
  | new md r c => exact sameWrite_check _ (hwrite md _)
  | newdef md => exact hwrite md _
  | get ma i j =>
    simp only [exec, execGet, hop ma (.head _)]
    exact sameWrite_check _ (sameWrite_check _ (hread _))
  | set md i j v =>
    simp only [exec, execSet, hop md (.head _)]
    exact sameWrite_check _ (sameWrite_check _ (sameWrite_check _ (hwrite md _)))
  | getrow ma i =>
    simp only [exec, execGetrow, hop ma (.head _)]
    exact sameWrite_check _ (sameWrite_check _ (hread _))
  | setrow md i q d =>
    simp only [exec, execSetrow, hop md (.head _), hseq]
    exact sameWrite_check _ (sameWrite_check _ (sameWrite_check _ (sameWrite_check _ (sameWrite_check _
      (hwrite md _)))))
  | getcol ma j =>
    simp only [exec, execGetcol, hop ma (.head _)]
    exact sameWrite_check _ (sameWrite_check _ (hread _))
  | setcol md j q d =>
    simp only [exec, execSetcol, hop md (.head _), hseq]
    exact sameWrite_check _ (sameWrite_check _ (sameWrite_check _ (sameWrite_check _ (sameWrite_check _
      (hwrite md _)))))
  | add md ma mb => exact sameWrite_addSlots md (hop ma (.head _)) (hop mb (.tail _ (.head _)))
  | sub md ma mb => exact sameWrite_addSlots md (hop ma (.head _)) (hop mb (.tail _ (.head _)))
  | mul md ma mb =>
    simp only [exec, execMul, hop ma (.head _), hop mb (.tail _ (.head _))]
    exact sameWrite_check _ (sameWrite_check _ (hwrite md _))
  | rank ma =>
    simp only [exec, execRank, hop ma (.head _)]
    exact sameWrite_check _ (hread _)
  | size ma =>
    simp only [exec, execSize, hop ma (.head _)]
    exact sameWrite_check _ (hread _)
  | seqld k d =>
    simp only [exec, execSeqld, hseq]
    exact sameWrite_check _ (sameWrite_succeed s s' (.seq _) 0)
  | reservedE => exact sameWrite_fail s s' _
  | reservedF => exact sameWrite_fail s s' _

/-- Settles O23: an empty operand fails the first check, and a slot that is no operand does not bear on the response. -/
theorem emptySlotsFailOperandsNotDestinations : Obligations.EmptySlotsFailOperandsNotDestinations := by
  refine ⟨exec_of_empty_operand, fun i s k m _ hk => ?_⟩
  have hop : ∀ j ∈ operandSlots i, s.slot j = (s.setSlot k m).slot j := fun j hj =>
    (slot_setSlot_ne s k j m fun he => hk (he ▸ hj)).symm
  obtain ⟨w, st, res, ht, hu⟩ := exec_sameWrite i hop rfl
  exact ⟨_, _, ht, hu, rfl, rfl⟩

/-! ### What is visible of the slots -/

/-- The same write keeps two states alike in what is visible: the written slot is alike whatever it held. -/
theorem sameVisible_write {s s' : State} (h : SameVisible s s') (w : StoreWrite) :
    SameVisible (s.write w) (s'.write w) := by
  obtain ⟨hslots, hseq⟩ := h
  cases w with
  | nothing => exact ⟨hslots, hseq⟩
  | slot md m =>
    refine ⟨fun k => ?_, hseq⟩
    simp only [State.write, setSlot_slots, slots_set_getElem]
    split
    · exact ⟨rfl, fun _ => rfl⟩
    · exact hslots k
  | seq q => exact ⟨hslots, rfl⟩

/-- A command writes the same from two states alike in what is visible: with an empty operand it fails in both, and
otherwise its operands are equal. -/
theorem exec_sameWrite_of_sameVisible (i : Instr) {s s' : State} (h : SameVisible s s') :
    SameWrite s s' (exec i s) (exec i s') := by
  obtain ⟨hslots, hseq⟩ := h
  by_cases hempty : ∃ k ∈ operandSlots i, (s.slot k).valid = false
  · obtain ⟨k, hk, he⟩ := hempty
    rw [exec_of_empty_operand i s k hk he, exec_of_empty_operand i s' k hk ((hslots k).1.symm.trans he)]
    exact sameWrite_fail s s' _
  · refine exec_sameWrite i (fun k hk => (hslots k).2 ?_) hseq
    by_contra hv
    exact hempty ⟨k, hk, Bool.eq_false_iff.2 hv⟩

/-- A command word writes the same from two states alike in what is visible. -/
theorem runCommand_sameWrite_of_sameVisible (w : CmdWord) (d : Word) {s s' : State} (h : SameVisible s s') :
    SameWrite s s' (runCommand w d s) (runCommand w d s') := by
  unfold runCommand
  split
  · exact exec_sameWrite_of_sameVisible _ h
  · exact sameWrite_fail s s' _

/-- Settles O28: the same response, and the same write to states that were alike in what is visible. -/
theorem emptySlotContentsUnobservable : Obligations.EmptySlotContentsUnobservable := by
  intro w d s s' h
  obtain ⟨wr, st, res, ht, ht'⟩ := runCommand_sameWrite_of_sameVisible w d h
  exact ⟨_, _, ht, ht', rfl, rfl, sameVisible_write h wr⟩

end Sys2Proof.Machine
end

section
/-! PROOF. The command channel of 20_memory.md: what each edge does in each phase (R57, R58), the outputs (R55), the
completion of an accepted command after its latency (R58, R262), and reads without side effect (R64). -/

namespace Sys2Proof.Machine

open Sys2Proof.Safety

/-! ### The outputs -/

theorem cmdReady_iff (s : State) : s.ports.cmdReady = true ↔ s.pins.rst = false ∧ s.phase = .idle := by
  simp [State.ports]

/-- The block is not ready exactly at a reset edge and outside IDLE. -/
theorem cmdReady_eq_false_iff (s : State) : s.ports.cmdReady = false ↔ (s.pins.rst = true ∨ s.phase ≠ .idle) := by
  rw [← Bool.not_eq_true, cmdReady_iff, Classical.not_and_iff_not_or_not, Bool.not_eq_false]

theorem rspValid_iff (s : State) : s.ports.rspValid = true ↔ s.pins.rst = false ∧ s.phase = .resp := by
  simp [State.ports]

/-- A presented response is the held one. -/
theorem ports_rsp_of_rspValid {s : State} (h : s.ports.rspValid = true) :
    s.ports.rspStatus = s.rspStatus ∧ s.ports.rspResult = s.rspResult :=
  ⟨if_pos h, if_pos h⟩

/-- Settles O13: with `rst` 0 each handshake output is 1 in its phase alone. -/
theorem portsFollowPhase : Obligations.PortsFollowPhase := by
  intro s hr
  refine ⟨?_, ?_, fun hp => ports_rsp_of_rspValid ((rspValid_iff s).2 ⟨hr, hp⟩)⟩
  · rw [cmdReady_iff, and_iff_right hr]
  · rw [rspValid_iff, and_iff_right hr]

/-! ### One edge without reset, phase by phase -/

section
variable {s : State} (hr : s.pins.rst = false)
include hr

theorem step_idle_of_no_command (hp : s.phase = .idle) (hv : s.pins.cmdValid = false) : step s = .next s.advance := by
  simp [step, edge, hr, hp, hv]

theorem step_idle_of_command (hp : s.phase = .idle) (hv : s.pins.cmdValid = true) :
    step s = .next (s.advance.accept s.pins) := by
  simp [step, edge, hr, hp, hv]

theorem step_busy_of_wait_succ {n : Nat} (hp : s.phase = .busy) (hw : s.wait = n + 1) :
    step s = .next { s.advance with wait := n } := by
  simp [step, edge, hr, hp, hw]

theorem step_busy_of_wait_zero (hp : s.phase = .busy) (hw : s.wait = 0) :
    step s = runCommand s.cmdReg s.dataReg s.advance := by
  simp [step, edge, hr, hp, hw]

theorem step_resp_of_untaken (hp : s.phase = .resp) (hv : s.pins.rspReady = false) : step s = .next s.advance := by
  simp [step, edge, hr, hp, hv]

theorem step_resp_of_taken (hp : s.phase = .resp) (hv : s.pins.rspReady = true) :
    step s = .next { s.advance with phase := .idle } := by
  simp [step, edge, hr, hp, hv]

end

/-- Settles O11, by the two edges of RESP. -/
theorem responseTakenReturnsToIdle : Obligations.ResponseTakenReturnsToIdle :=
  fun _ hp hr => ⟨step_resp_of_taken hr hp, step_resp_of_untaken hr hp⟩

/-- A word that decodes runs its command (R100). -/
theorem runCommand_of_decode {w : CmdWord} {d : Word} {i : Instr} (h : decode w d = .ok i) (s : State) :
    runCommand w d s = exec i s := by
  simp only [runCommand, h]

/-- Settles O7: the completing edge runs the word it holds, and the word runs what it decodes to. -/
theorem stepRunsDecodedCommand : Obligations.StepRunsDecodedCommand := by
  intro s i ⟨hr, hp, hw⟩ hi _
  calc step s = runCommand s.cmdReg s.dataReg s.advance := step_busy_of_wait_zero hr hp hw
    _ = exec i s.advance := runCommand_of_decode hi s.advance

/-! ### Acceptance -/

/-- Only an IDLE block that is ready can become BUSY; any other BUSY block was BUSY before. -/
theorem busy_of_step_busy {s t : State} (hready : s.ports.cmdReady = false) (ht : step s = .next t)
    (hbusy : t.phase = .busy) : s.phase = .busy := by
  rcases step_cases s with ⟨-, h⟩ | ⟨hr, h⟩
  · cases ht.symm.trans h
    cases hbusy
  · rcases h with ⟨hp, -⟩ | ⟨hp, -⟩ | ⟨hp, -⟩ | ⟨n, hp, -⟩ | ⟨hp, -, h⟩ | ⟨hp, -, h⟩
    case inl | inr.inl => simp [(cmdReady_iff s).2 ⟨hr, hp⟩] at hready
    case inr.inr.inl | inr.inr.inr.inl => exact hp
    case inr.inr.inr.inr.inl =>
      cases ht.symm.trans h
      exact hbusy
    case inr.inr.inr.inr.inr =>
      cases ht.symm.trans h
      cases hbusy

/-- A reset edge, and an edge outside IDLE, do not read the command port. -/
theorem edge_ignores_command_port {p : Pins} {s : State} (h : p.rst = true ∨ s.phase ≠ .idle)
    (v : Bool) (w : CmdWord) (d : Word) : edge { p with cmdValid := v, cmdWord := w, cmdData := d } s = edge p s := by
  rcases h with hr | hp
  · simp [edge, hr]
  · cases hphase : s.phase with
    | idle => exact absurd hphase hp
    | busy | resp => simp only [edge, hphase]

/-- Settles O9: the two edges of IDLE, the phases a BUSY block can come from, and the port unread where the block is not
ready. -/
theorem acceptanceSamplesCommand : Obligations.AcceptanceSamplesCommand := by
  refine ⟨fun s hr hv hready => ?_, fun s hr hv hp => ?_, fun s t => busy_of_step_busy, ?_⟩
  · have hp := ((cmdReady_iff s).1 hready).2
    exact ⟨hp, _, step_idle_of_command hr hp hv, rfl, rfl, rfl, rfl, rfl⟩
  · exact ⟨_, step_idle_of_no_command hr hp hv, hp, rfl, rfl, rfl, rfl⟩
  · intro s p rest v w d hready hin
    have hignored : s.pins.rst = true ∨ s.advance.phase ≠ .idle := (cmdReady_eq_false_iff s).1 hready
    have hpins : s.pins = p := by simp [State.pins, hin]
    have hadvance : s.advance = { s with inputs := p :: rest }.advance := by rw [← hin]
    calc step s = edge { s.pins with cmdValid := v, cmdWord := w, cmdData := d } s.advance :=
          (edge_ignores_command_port hignored v w d).symm
      _ = _ := by rw [hpins, hadvance]; rfl

/-! ### Completion -/

/-- The state after `n` edges of a command's latency: only the wait, the inputs and the count of edges moved. -/
def State.countDown (s : State) (n : Nat) : State :=
  { s with wait := s.wait - n, inputs := s.inputs.drop n, edges := s.edges + n }

/-- The first edge of the latency, then the rest. -/
theorem countDown_succ {s : State} {m : Nat} (hm : s.wait = m + 1) (n : Nat) :
    { s.advance with wait := m }.countDown n = s.countDown (n + 1) := by
  simp [State.countDown, hm, State.advance, Nat.add_assoc, Nat.add_comm 1 n]

/-- Without reset a BUSY block counts down its latency. -/
theorem runEdges_busy (n : Nat) : ∀ s : State, s.phase = .busy → n ≤ s.wait →
    (∀ q ∈ s.inputs.take n, q.rst = false) → runEdges n s = .next (s.countDown n) := by
  induction n with
  | zero => exact fun s _ _ _ => rfl
  | succ n ih =>
    intro s hp hn hin
    obtain ⟨m, hm⟩ : ∃ m, s.wait = m + 1 := ⟨s.wait - 1, by omega⟩
    have hnm : n ≤ m := by omega
    rw [runEdges_succ (step_busy_of_wait_succ (pins_rst_of_take hin) hp hm),
      ih { s.advance with wait := m } hp hnm (take_tail_of_take hin), countDown_succ hm]

theorem runEdges_one (s : State) : runEdges 1 s = step s := by
  obtain ⟨t, ht, -⟩ := step_next_inputs s
  rw [runEdges_succ ht, ht]
  rfl

/-- Without reset a BUSY block runs its command at the edge after its wait. -/
theorem runEdges_busy_completes (n : Nat) : ∀ s : State, s.phase = .busy → s.wait = n →
    (∀ q ∈ s.inputs.take (n + 1), q.rst = false) →
    runEdges (n + 1) s = runCommand s.cmdReg s.dataReg (s.countDown (n + 1)) := by
  induction n with
  | zero =>
    intro s hp hw hin
    have hadvance : s.advance = s.countDown 1 := by simp [State.countDown, State.advance, hw]
    rw [runEdges_one, step_busy_of_wait_zero (pins_rst_of_take hin) hp hw, hadvance]
  | succ n ih =>
    intro s hp hw hin
    rw [runEdges_succ (step_busy_of_wait_succ (pins_rst_of_take hin) hp hw),
      ih { s.advance with wait := n } hp rfl (take_tail_of_take hin), countDown_succ hw]
    rfl

/-- Settles O10: the accepting edge sets the wait to one less than the latency, which the BUSY block counts down, and
the edge after that runs the command. -/
theorem commandCompletesAfterLatency : Obligations.CommandCompletesAfterLatency := by
  intro s p rest hp hin hr hv lat hrest
  have hpins : s.pins = p := by simp [State.pins, hin]
  have htail : s.inputs.tail = rest := by rw [hin]; rfl
  have haccept : step s = .next (s.advance.accept p) := by
    rw [step_idle_of_command (by rw [hpins, hr]) hp (by rw [hpins, hv]), hpins]
  have hwait : (s.advance.accept p).wait + 1 = lat := rfl
  have hinputs : (s.advance.accept p).inputs = rest := htail
  refine ⟨fun n h1 hn => ?_, ?_⟩
  · obtain ⟨m, rfl⟩ : ∃ m, n = m + 1 := ⟨n - 1, by omega⟩
    have hm : ∀ q ∈ (s.advance.accept p).inputs.take m, q.rst = false := fun q hq =>
      hrest q (List.take_subset_take_left rest (by omega) (hinputs ▸ hq))
    rw [runEdges_succ haccept, runEdges_busy m _ rfl (by omega) hm]
    exact ⟨_, rfl, rfl, rfl, rfl⟩
  · have hrun := runEdges_busy_completes _ (s.advance.accept p) rfl rfl (by rwa [hwait, hinputs])
    rw [Nat.add_comm, runEdges_succ haccept, ← hwait, hrun]
    simp [State.countDown, State.accept, State.advance, htail, Nat.add_assoc, Nat.add_comm]

/-! ### Reads -/

/-- A reader has no write of the store open to it. -/
theorem MayWrite.eq_nothing_of_readsOnly {i : Instr} {s : State} {w : StoreWrite} (h : MayWrite i s w)
    (hi : readsOnly i = true) : w = .nothing := by
  have hnone := writtenSlot_of_readsOnly hi
  cases h with
  | nothing => rfl
  | create md m hc => cases hnone.symm.trans (writtenSlot_of_createdSlot hc)
  | modify md m hw => cases hnone.symm.trans hw
  | load k d q he =>
    subst he
    cases hi

/-- A reader presents a response and changes nothing else. -/
theorem exec_reader {i : Instr} (hi : readsOnly i = true) (s : State) :
    ∃ code res, exec i s = .next (answered s code res) := by
  obtain ⟨w, st, res, h, hw⟩ := exec_allowed i s
  cases hw.eq_nothing_of_readsOnly hi
  exact ⟨st.code, res, h⟩

/-- Settles O27: a reader leaves slots and SEQ, on which alone every answer depends, so the repeated read answers the
same. -/
theorem readsHaveNoSideEffect : Obligations.ReadsHaveNoSideEffect := by
  refine ⟨fun i s hi => ?_, fun w d s s' hslots hseq => ?_⟩
  · obtain ⟨code, res, h⟩ := exec_reader hi s
    obtain ⟨code', res', h'⟩ := exec_reader hi (answered s code res)
    obtain ⟨t, u, ht, hu, -, -, hcode, hres⟩ :=
      exec_sameAnswer i (s := s) (t := answered s code res) ⟨rfl, rfl⟩
    cases h.symm.trans ht
    cases h'.symm.trans hu
    obtain rfl : code = code' := hcode
    obtain rfl : res = res' := hres
    exact ⟨_, h, rfl, h'⟩
  · obtain ⟨t, u, ht, hu, ⟨hslots', hseq'⟩, -, hcode, hres⟩ :=
      runCommand_sameAnswer w d (s := s) (t := s') ⟨hslots, hseq⟩
    exact ⟨t, u, ht, hu, hslots', hseq', hcode, hres⟩

end Sys2Proof.Machine
end

section
/-! PROOF. The decoder and the encoder of 30_encoding.md. A word without reserved bits is the command word of its fields
and decodes to the command that opcode, fields and DATA name; the assembler's word of that command is the word with the
fields cleared that the command does not read (R88, R91). -/

namespace Sys2Proof

open Sys2Proof.Machine Sys2Proof.Safety

/-! ### The decoder -/

/-- The command that an opcode, the fields of R81 and DATA name (R85). -/
def commandOf (op : Nat) (md ma mb : SlotNum) (s : Bool) (i j : Int) (d : Word) : Instr :=
  match op with
  | 0x0 => .new md i j
  | 0x1 => .newdef md
  | 0x2 => .get ma i j
  | 0x3 => .set md i j d
  | 0x4 => .getrow ma i
  | 0x5 => .setrow md i s d
  | 0x6 => .getcol ma j
  | 0x7 => .setcol md j s d
  | 0x8 => .add md ma mb
  | 0x9 => .sub md ma mb
  | 0xA => .mul md ma mb
  | 0xB => .rank ma
  | 0xC => .size ma
  | 0xD => .seqld i d
  | 0xE => .reservedE
  | _ => .reservedF

theorem decode_of_reserved {c : CmdWord} (h : reservedBitSet c) (d : Word) : decode c d = .error .reservedBits :=
  if_pos h

theorem decode_of_clear {c : CmdWord} (h : ¬ reservedBitSet c) (d : Word) :
    decode c d =
      .ok (commandOf (opField c).toNat (mdField c) (maField c) (mbField c) (sField c) (iField c) (jField c) d) := by
  unfold decode commandOf
  rw [if_neg h]
  split <;> simp only [*]

/-- Only a word without reserved bits decodes, and to what its fields name. -/
theorem decode_eq_ok_iff {c : CmdWord} {d : Word} {i : Instr} : decode c d = .ok i ↔ ¬ reservedBitSet c ∧
    commandOf (opField c).toNat (mdField c) (maField c) (mbField c) (sField c) (iField c) (jField c) d = i := by
  by_cases h : reservedBitSet c
  · simp only [decode_of_reserved h, h, not_true_eq_false, false_and, reduceCtorEq]
  · simp only [decode_of_clear h, h, not_false_eq_true, true_and, Except.ok.injEq]

theorem decode_commandWord {i j : Int} (hi : fitsS8 i = true) (hj : fitsS8 j = true) (op : BitVec 4)
    (md ma mb : SlotNum) (s : Bool) (d : Word) :
    decode (commandWord op md ma mb s i j) d = .ok (commandOf op.toNat md ma mb s i j d) := by
  rw [decode_of_clear (commandWord_reserved_clear _ _ _ _ _ _ _), opField_commandWord, mdField_commandWord,
    maField_commandWord, mbField_commandWord, sField_commandWord, iField_commandWord _ _ _ _ _ _ _ hi,
    jField_commandWord _ _ _ _ _ _ _ hj]

/-- An operand that a command does not have is encoded as 0, which has an encoding. -/
theorem fitsS8_zero : fitsS8 0 = true := by decide

/-- Settles O1: each command is what its own opcode and operands name, and the fields of its word are read back. -/
theorem decodeInvertsEncode : Obligations.DecodeInvertsEncode := by
  intro i hi
  cases i with
  | new md r c =>
    obtain ⟨hr, hc⟩ := Bool.and_eq_true_iff.1 hi
    exact decode_commandWord hr hc ..
  | get ma i j =>
    obtain ⟨hi, hj⟩ := Bool.and_eq_true_iff.1 hi
    exact decode_commandWord hi hj ..
  | set md i j v =>
    obtain ⟨hi, hj⟩ := Bool.and_eq_true_iff.1 hi
    exact decode_commandWord hi hj ..
  | getrow ma i => exact decode_commandWord hi fitsS8_zero ..
  | setrow md i q d => exact decode_commandWord hi fitsS8_zero ..
  | seqld k d => exact decode_commandWord hi fitsS8_zero ..
  | getcol ma j => exact decode_commandWord fitsS8_zero hi ..
  | setcol md j q d => exact decode_commandWord fitsS8_zero hi ..
  | newdef | add | sub | mul | rank | size | reservedE | reservedF =>
    exact decode_commandWord fitsS8_zero fitsS8_zero ..

/-! ### The fields of a word -/

/-- A word is its fields, joined. -/
theorem joined_extractLsb' (w : CmdWord) :
    joined (w.extractLsb' 28 4) (w.extractLsb' 20 8) (w.extractLsb' 12 8) (w.extractLsb' 11 1) (w.extractLsb' 10 1)
      (w.extractLsb' 8 2) (w.extractLsb' 6 2) (w.extractLsb' 4 2) (w.extractLsb' 0 4) = w := by
  apply BitVec.eq_of_getLsbD_eq
  intro k hk
  simp only [joined, BitVec.getLsbD_append, BitVec.getLsbD_extractLsb']
  interval_cases k <;> rfl

/-- Words are compared under a mask field by field. -/
theorem joined_and (r r' : BitVec 4) (j j' i i' : BitVec 8) (z z' s s' : BitVec 1) (b b' a a' d d' : BitVec 2)
    (op op' : BitVec 4) : joined r j i z s b a d op &&& joined r' j' i' z' s' b' a' d' op' =
      joined (r &&& r') (j &&& j') (i &&& i') (z &&& z') (s &&& s') (b &&& b') (a &&& a') (d &&& d') (op &&& op') := by
  simp only [joined, ← BitVec.and_append]

/-- The word that carries the fields of a word without reserved bits is that word. -/
theorem commandWord_fields {w : CmdWord} (h : ¬ reservedBitSet w) :
    commandWord (opField w) (mdField w) (maField w) (mbField w) (sField w) (iField w) (jField w) = w := by
  obtain ⟨hr, hz⟩ := not_or.1 h
  have hz' : w.extractLsb' 11 1 = 0#1 := by
    apply BitVec.eq_of_getLsbD_eq
    simpa using hz
  have hs : BitVec.ofBool (w.getLsbD 10) = w.extractLsb' 10 1 := by
    apply BitVec.eq_of_getLsbD_eq
    simp
  calc _ = joined (w.extractLsb' 28 4) (w.extractLsb' 20 8) (w.extractLsb' 12 8) (w.extractLsb' 11 1)
        (w.extractLsb' 10 1) (w.extractLsb' 8 2) (w.extractLsb' 6 2) (w.extractLsb' 4 2) (w.extractLsb' 0 4) := by
        rw [commandWord_eq_joined, hz', not_not.1 hr, ← hs]
        simp only [iField, jField, s8, sField, mdField, maField, mbField, opField, BitVec.ofInt_toInt,
          BitVec.val_toFin, BitVec.ofNat_toNat, BitVec.setWidth_eq]
    _ = w := joined_extractLsb' w

/-- What a mask leaves of a field: all of it, or nothing. -/
def FieldMasked {n : Nat} (m f f' : BitVec n) : Prop := (m = BitVec.allOnes n ∧ f = f') ∨ (m = 0#n ∧ 0#n = f')

theorem and_of_fieldMasked {n : Nat} {m f f' : BitVec n} (h : FieldMasked m f f') : f &&& m = f' := by
  rcases h with ⟨rfl, rfl⟩ | ⟨rfl, rfl⟩
  · exact BitVec.and_allOnes
  · exact BitVec.and_zero

/-- A mask that takes each field whole or not at all makes a command word of a command word. -/
theorem commandWord_and (m : CmdWord) {op op' : BitVec 4} {md md' ma ma' mb mb' : SlotNum} {s s' : Bool}
    {i i' j j' : Int} (hop : FieldMasked (m.extractLsb' 0 4) op op')
    (hmd : FieldMasked (m.extractLsb' 4 2) (BitVec.ofNat 2 md.val) (BitVec.ofNat 2 md'.val))
    (hma : FieldMasked (m.extractLsb' 6 2) (BitVec.ofNat 2 ma.val) (BitVec.ofNat 2 ma'.val))
    (hmb : FieldMasked (m.extractLsb' 8 2) (BitVec.ofNat 2 mb.val) (BitVec.ofNat 2 mb'.val))
    (hs : FieldMasked (m.extractLsb' 10 1) (BitVec.ofBool s) (BitVec.ofBool s'))
    (hi : FieldMasked (m.extractLsb' 12 8) (BitVec.ofInt 8 i) (BitVec.ofInt 8 i'))
    (hj : FieldMasked (m.extractLsb' 20 8) (BitVec.ofInt 8 j) (BitVec.ofInt 8 j')) :
    commandWord op md ma mb s i j &&& m = commandWord op' md' ma' mb' s' i' j' := by
  rw [commandWord_eq_joined, ← joined_extractLsb' m, joined_and, and_of_fieldMasked hop, and_of_fieldMasked hmd,
    and_of_fieldMasked hma, and_of_fieldMasked hmb, and_of_fieldMasked hs, and_of_fieldMasked hi, and_of_fieldMasked hj,
    BitVec.zero_and, BitVec.zero_and, commandWord_eq_joined]

/-- Words that agree under a mask have the same bits in a range that the mask covers. -/
theorem extractLsb'_congr_of_and {w w' m : CmdWord} (h : w &&& m = w' &&& m) {lo n : Nat}
    (hm : m.extractLsb' lo n = BitVec.allOnes n) : w.extractLsb' lo n = w'.extractLsb' lo n := by
  have hx := congrArg (BitVec.extractLsb' lo n) h
  rwa [BitVec.extractLsb'_and, BitVec.extractLsb'_and, hm, BitVec.and_allOnes, BitVec.and_allOnes] at hx

/-! ### Reserved bits -/

theorem reservedBitSet_iff (w : CmdWord) : reservedBitSet w ↔ w &&& 0xF0000800#32 ≠ 0#32 := by
  rw [← not_iff_not, ne_eq, not_not]
  constructor
  · intro h
    rw [← commandWord_fields h]
    have hz {n : Nat} {f : BitVec n} : FieldMasked 0#n f 0#n := .inr ⟨rfl, rfl⟩
    exact commandWord_and 0xF0000800#32 (op' := 0) (md' := 0) (ma' := 0) (mb' := 0) (s' := false) (i' := 0) (j' := 0)
      hz hz hz hz hz hz hz
  · intro h
    have h0 : w &&& 0xF0000800#32 = 0#32 &&& 0xF0000800#32 := h
    have hr : w.extractLsb' 28 4 = 0#4 := extractLsb'_congr_of_and h0 rfl
    have hz : w.extractLsb' 11 1 = 0#1 := extractLsb'_congr_of_and h0 rfl
    have hz' : w.getLsbD 11 = false := by simpa using congrArg (BitVec.getLsbD · 0) hz
    exact not_or.2 ⟨not_not.2 hr, ne_true_of_eq_false hz'⟩

/-- Settles O4: the decoder rejects the word, and the channel answers it. -/
theorem reservedBitsAnswerIllegalCommand : Obligations.ReservedBitsAnswerIllegalCommand := by
  intro w d s h
  have hd := decode_of_reserved ((reservedBitSet_iff w).2 h) d
  simp only [runCommand, hd]
  exact fail_eq .illegalCommand s

/-! ### Opcodes -/

theorem toNat_opField (w : CmdWord) : (opField w).toNat = w.toNat % 16 := by
  simp [opField]

/-- An opcode in an empty word stands in its field, and the reserved bits are 0. -/
theorem format_of_opcode (op : BitVec 4) :
    (op.setWidth 32).extractLsb' 0 4 = op ∧ op.setWidth 32 &&& 0xF0000800#32 = 0#32 := by
  revert op
  decide

/-- How a word decodes that matches a row of the opcode table: the mask takes the reserved bits and the opcode (R85). -/
theorem decode_of_match {w : CmdWord} {op : BitVec 4} (h : w &&& 0xF000080F#32 = op.setWidth 32) (d : Word) :
    decode w d =
      .ok (commandOf op.toNat (mdField w) (maField w) (mbField w) (sField w) (iField w) (jField w) d) := by
  have hop : opField w = op := by
    have h4 := congrArg (BitVec.extractLsb' 0 4) h
    rw [BitVec.extractLsb'_and] at h4
    calc opField w = opField w &&& BitVec.allOnes 4 := BitVec.and_allOnes.symm
      _ = (op.setWidth 32).extractLsb' 0 4 := h4
      _ = op := (format_of_opcode op).1
  have hclear : ¬ reservedBitSet w := by
    rw [reservedBitSet_iff, ne_eq, not_not]
    calc w &&& 0xF0000800#32 = (w &&& 0xF000080F#32) &&& 0xF0000800#32 := by rw [BitVec.and_assoc]; rfl
      _ = op.setWidth 32 &&& 0xF0000800#32 := by rw [h]
      _ = 0#32 := (format_of_opcode op).2
  rw [decode_of_clear hclear, hop]

/-- Settles O5: the two rows of the opcode table, and the two meanings. -/
theorem reservedOpcodesAnswerIllegalCommand : Obligations.ReservedOpcodesAnswerIllegalCommand :=
  ⟨fun _ d h => decode_of_match (op := 0xE) h d, fun _ d h => decode_of_match (op := 0xF) h d,
    fail_eq .illegalCommand, fail_eq .illegalCommand⟩

/-- Settles O6, by decoding each word. -/
theorem sampleWordsDecode : Obligations.SampleWordsDecode := by
  unfold Obligations.SampleWordsDecode
  decide

/-! ### The bits a command reads -/

/-- For the command that some fields name, the encoder keeps the fields and the DATA that the command reads and writes 0
for the others (R88, R91): for each of the 16 opcodes the mask takes every field whole or not at all. -/
theorem encode_commandOf (op : BitVec 4) (md ma mb : SlotNum) (s : Bool) (i j : Int) (d : Word) :
    encode (commandOf op.toNat md ma mb s i j d) =
      (commandWord op md ma mb s i j &&& readMask op.toNat, if readsData op.toNat = true then d else 0) := by
  obtain ⟨⟨n, hn⟩⟩ := op
  interval_cases n
  all_goals refine Prod.ext (Eq.symm (commandWord_and _ ?_ ?_ ?_ ?_ ?_ ?_ ?_)) rfl
  all_goals simp [FieldMasked, readMask]

/-- What the assembler writes for the command that a word decodes to: the bits of the word that the command reads. -/
theorem encode_of_decode {w : CmdWord} {d : Word} {i : Instr} (h : decode w d = .ok i) :
    encode i = (w &&& readMask (w.toNat % 16), if readsData (w.toNat % 16) = true then d else 0) := by
  obtain ⟨hclear, rfl⟩ := decode_eq_ok_iff.1 h
  rw [encode_commandOf, commandWord_fields hclear, toNat_opField]

/-- A command whose integers are read from fields is well formed. -/
theorem commandOf_wellFormed {i j : Int} (hi : fitsS8 i = true) (hj : fitsS8 j = true) (op : Nat) (md ma mb : SlotNum)
    (s : Bool) (d : Word) : (commandOf op md ma mb s i j d).wellFormed = true := by
  match op with
  | 0x0 | 0x2 | 0x3 => exact Bool.and_eq_true_iff.2 ⟨hi, hj⟩
  | 0x4 | 0x5 | 0xD => exact hi
  | 0x6 | 0x7 => exact hj
  | 0x1 | 0x8 | 0x9 | 0xA | 0xB | 0xC | 0xE | _ + 15 => rfl

theorem wellFormed_of_decode {w : CmdWord} {d : Word} {i : Instr} (h : decode w d = .ok i) : i.wellFormed = true := by
  obtain ⟨-, rfl⟩ := decode_eq_ok_iff.1 h
  exact commandOf_wellFormed (fitsS8_s8 _) (fitsS8_s8 _) ..

/-- Settles O2: the assembler's word is the given one with the bits cleared that the command does not read. -/
theorem encodeAgreesOnReadBits : Obligations.EncodeAgreesOnReadBits := by
  intro w d i h
  rw [encode_of_decode h]
  refine ⟨wellFormed_of_decode h, ?_, fun hd => ?_⟩
  · rw [BitVec.and_assoc, BitVec.and_self]
  · simp only [hd, if_true]

/-- Every command is named by an opcode and fields. -/
theorem exists_commandOf (c : Instr) : ∃ (op : BitVec 4) (md ma mb : SlotNum) (s : Bool) (i j : Int) (d : Word),
    c = commandOf op.toNat md ma mb s i j d := by
  cases c with
  | new md r c => exact ⟨0x0, md, 0, 0, false, r, c, 0, rfl⟩
  | newdef md => exact ⟨0x1, md, 0, 0, false, 0, 0, 0, rfl⟩
  | get ma i j => exact ⟨0x2, 0, ma, 0, false, i, j, 0, rfl⟩
  | set md i j v => exact ⟨0x3, md, 0, 0, false, i, j, v, rfl⟩
  | getrow ma i => exact ⟨0x4, 0, ma, 0, false, i, 0, 0, rfl⟩
  | setrow md i q d => exact ⟨0x5, md, 0, 0, q, i, 0, d, rfl⟩
  | getcol ma j => exact ⟨0x6, 0, ma, 0, false, 0, j, 0, rfl⟩
  | setcol md j q d => exact ⟨0x7, md, 0, 0, q, 0, j, d, rfl⟩
  | add md ma mb => exact ⟨0x8, md, ma, mb, false, 0, 0, 0, rfl⟩
  | sub md ma mb => exact ⟨0x9, md, ma, mb, false, 0, 0, 0, rfl⟩
  | mul md ma mb => exact ⟨0xA, md, ma, mb, false, 0, 0, 0, rfl⟩
  | rank ma => exact ⟨0xB, 0, ma, 0, false, 0, 0, 0, rfl⟩
  | size ma => exact ⟨0xC, 0, ma, 0, false, 0, 0, 0, rfl⟩
  | seqld k d => exact ⟨0xD, 0, 0, 0, false, k, 0, d, rfl⟩
  | reservedE => exact ⟨0xE, 0, 0, 0, false, 0, 0, 0, rfl⟩
  | reservedF => exact ⟨0xF, 0, 0, 0, false, 0, 0, 0, rfl⟩

/-- Every command reads the reserved bits. -/
theorem readMask_and_reserved (op : Nat) : readMask op &&& 0xF0000800#32 = 0xF0000800#32 := by
  unfold readMask
  split <;> rfl

/-- Every command reads the opcode. -/
theorem readMask_opcode (op : Nat) : (readMask op).extractLsb' 0 4 = BitVec.allOnes 4 := by
  unfold readMask
  split <;> rfl

theorem opField_encode_commandOf (op : BitVec 4) (md ma mb : SlotNum) (s : Bool) (i j : Int) (d : Word) :
    opField (encode (commandOf op.toNat md ma mb s i j d)).1 = op := by
  rw [encode_commandOf, opField, BitVec.extractLsb'_and, readMask_opcode, BitVec.and_allOnes]
  exact opField_commandWord ..

/-- Two words of one opcode that agree in what the command reads decode alike: the assembler would write the same for
both, and what it writes decodes to the command it came from. -/
theorem decode_congr {w w' : CmdWord} {d d' : Word} (hop : w.toNat % 16 = w'.toNat % 16)
    (hw : w &&& readMask (w.toNat % 16) = w' &&& readMask (w.toNat % 16))
    (hd : readsData (w.toNat % 16) = true → d = d') : decode w d = decode w' d' := by
  have hr : reservedBitSet w ↔ reservedBitSet w' := by
    have h := congrArg (· &&& 0xF0000800#32) hw
    simp only [BitVec.and_assoc, readMask_and_reserved] at h
    rw [reservedBitSet_iff, reservedBitSet_iff, h]
  by_cases h : reservedBitSet w
  · rw [decode_of_reserved h, decode_of_reserved (hr.1 h)]
  · obtain ⟨i, hi⟩ : ∃ i, decode w d = .ok i := ⟨_, decode_of_clear h d⟩
    obtain ⟨i', hi'⟩ : ∃ i, decode w' d' = .ok i := ⟨_, decode_of_clear (mt hr.2 h) d'⟩
    have he : encode i = encode i' := by
      rw [encode_of_decode hi, encode_of_decode hi', ← hop]
      exact Prod.ext hw (ite_congr rfl hd fun _ => rfl)
    calc decode w d = .ok i := hi
      _ = decode (encode i).1 (encode i).2 := (decodeInvertsEncode i (wellFormed_of_decode hi)).symm
      _ = decode (encode i').1 (encode i').2 := by rw [he]
      _ = .ok i' := decodeInvertsEncode i' (wellFormed_of_decode hi')
      _ = decode w' d' := hi'.symm

/-- Settles O3: words that decode alike run alike, and every command's word is a masked one of its opcode. -/
theorem ignoredFieldsChangeNothing : Obligations.IgnoredFieldsChangeNothing := by
  refine ⟨fun w w' d d' s hop hw hd => ?_, fun c => ?_⟩
  · simp only [runCommand, decode_congr hop hw hd]
  · obtain ⟨op, md, ma, mb, s, i, j, d, rfl⟩ := exists_commandOf c
    have hop : (encode (commandOf op.toNat md ma mb s i j d)).1.toNat % 16 = op.toNat := by
      rw [← toNat_opField, opField_encode_commandOf]
    rw [hop, encode_commandOf, BitVec.and_assoc, BitVec.and_not_self]
    exact ⟨BitVec.and_zero, fun hd => if_neg (ne_true_of_eq_false hd)⟩

end Sys2Proof
end

section
/-! PROOF. The pseudo-instructions of R92. LDSEQ is its octets loaded one after another, so after the first `n` of them
the first `8n` entries of SEQ hold the sequence, padded with 0; SETROWV and SETCOLV then set a row or a column from a
SEQ that holds the elements, and the row or column reads them back (R170). -/

namespace Sys2Proof.Machine

open Sys2Proof.Safety

/-! ### Lists of commands -/

theorem execAll_cons {c : Instr} {s t : State} (h : exec c s = .next t) (cs : List Instr) :
    execAll (c :: cs) s = execAll cs t := by
  simp only [execAll, h]

theorem execAll_singleton {c : Instr} {s t : State} (h : exec c s = .next t) : execAll [c] s = .next t :=
  execAll_cons h []

/-- A list of commands is its parts, one after the other. -/
theorem execAll_append {cs : List Instr} (cs' : List Instr) {s t : State} (h : execAll cs s = .next t) :
    execAll (cs ++ cs') s = execAll cs' t := by
  induction cs generalizing s with
  | nil =>
    cases h
    rfl
  | cons c cs ih =>
    cases hu : exec c s with
    | next u =>
      rw [execAll_cons hu] at h
      rw [List.cons_append, execAll_cons hu, ih h]
    | fault f | refused r => simp only [execAll, hu, reduceCtorEq] at h

/-! ### Loading a sequence -/

theorem exec_seqld {k : Nat} (hk : k < 8) (d : Word) (s : State) :
    exec (.seqld k d) s = .next ({ s with seq := seqLoad s.seq k d }.respond .ok 0) := by
  have hok : octetOk k := ⟨by omega, by omega⟩
  exact if_neg (not_not.2 hok)

/-- Byte lane `x` of an octet's word is element `x` of the octet. -/
theorem byteLane_octetWord (es : List Byte) (k : Nat) {x : Nat} (hx : x < 8) :
    byteLane (octetWord es k) x = es.getD (8 * k + x) 0 := by
  apply BitVec.eq_of_getLsbD_eq
  intro b hb
  have hlane : ∀ e, 8 * e ≤ 8 * x + b → 8 * x + b - 8 * e < 8 → e = x := by omega
  rw [byteLane, BitVec.getLsbD_extractLsb', octetWord, getLsbD_orBelow, Bool.eq_iff_iff]
  simp only [List.any_eq_true, List.mem_range, BitVec.getLsbD_shiftLeft, BitVec.getLsbD_setWidth, Bool.and_eq_true,
    decide_eq_true_eq, Bool.not_eq_true', decide_eq_false_iff_not]
  constructor
  · rintro ⟨-, e, -, ⟨-, hle⟩, -, he⟩
    have hlt := BitVec.lt_of_getLsbD he
    obtain rfl := hlane e (by omega) hlt
    rwa [Nat.add_sub_cancel_left] at he
  · intro h
    refine ⟨hb, x, hx, ⟨by omega, by omega⟩, by omega, ?_⟩
    rwa [Nat.add_sub_cancel_left]

/-- After `n` octets of a sequence the first `8n` entries of SEQ are the sequence, padded with 0, and nothing else of
the store has changed. -/
theorem execAll_octets (es : List Byte) (s : State) (n : Nat) (hn : n ≤ 8) :
    ∃ t, execAll ((List.range n).map fun k : Nat => .seqld k (octetWord es k)) s = .next t ∧
      (0 < n → Answers t 0 0) ∧ t.slots = s.slots ∧
      ∀ e, e < 64 → seqAt t.seq e = if e < 8 * n then es.getD e 0 else seqAt s.seq e := by
  induction n with
  | zero => exact ⟨s, rfl, fun h => absurd h (Nat.lt_irrefl 0), rfl, fun e _ => rfl⟩
  | succ n ih =>
    obtain ⟨t, ht, -, hslots, hseq⟩ := ih (by omega)
    have hlast := exec_seqld (k := n) (by omega) (octetWord es n) t
    rw [List.range_succ, List.map_append]
    refine ⟨_, (execAll_append _ ht).trans (execAll_singleton hlast), fun _ => ⟨rfl, rfl, rfl⟩, hslots, fun e he => ?_⟩
    rw [respond_seq, seqAt_seqLoad _ _ _ _ he, hseq e he]
    by_cases hk : e / 8 = n
    · rw [if_pos hk, if_pos (by omega), byteLane_octetWord _ _ (by omega), ← hk, Nat.div_add_mod]
    · rw [if_neg hk]
      exact if_congr (by omega) rfl rfl

/-- Settles O43: the octets of the sequence, the last of them padded. -/
theorem ldseqLoadsSequence : Obligations.LdseqLoadsSequence := by
  intro es s ⟨h1, h64⟩
  obtain ⟨t, ht, hans, hslots, hseq⟩ := execAll_octets es s ((es.length + 7) / 8) (by omega)
  refine ⟨t, ht, hans (by omega), hslots, fun e he => ?_⟩
  rw [hseq e he]
  by_cases hlt : e < es.length
  · rw [if_pos hlt, if_pos (by omega)]
  · rw [if_neg hlt, List.getD_eq_default _ _ (by omega)]

/-! ### Rows and columns set from a sequence -/

section
variable {s : State} {md : SlotNum} {v : Int}

theorem exec_getrow (hv : (s.slot md).valid = true) (hi : rowOk (s.slot md) v) :
    exec (.getrow md v) s = .next (answered s 0 ((s.slot md).word v.toNat)) :=
  (if_neg (ne_false_of_eq_true hv)).trans (if_neg (not_not.2 hi))

theorem exec_getcol (hv : (s.slot md).valid = true) (hj : colOk (s.slot md) v) :
    exec (.getcol md v) s = .next (answered s 0 (colGet (s.slot md) v.toNat)) :=
  (if_neg (ne_false_of_eq_true hv)).trans (if_neg (not_not.2 hj))

theorem exec_setrow {d : Word} (hv : (s.slot md).valid = true) (hi : rowOk (s.slot md) v)
    (hd : lengthOk d (s.slot md).cols.toNat) (hq : seqOk s.seq (s.slot md).cols.toNat) :
    WritesSlot (exec (.setrow md v true d) s) s md
      ((s.slot md).setWord v.toNat (seqPack s.seq (s.slot md).cols.toNat)) :=
  (if_neg (ne_false_of_eq_true hv)).trans <| (if_neg (not_not.2 hi)).trans <| (if_neg nofun).trans <|
    (if_neg (not_not.2 hd)).trans (if_neg (not_not.2 hq))

theorem exec_setcol {d : Word} (hv : (s.slot md).valid = true) (hj : colOk (s.slot md) v)
    (hd : lengthOk d (s.slot md).rows.toNat) (hq : seqOk s.seq (s.slot md).rows.toNat) :
    WritesSlot (exec (.setcol md v true d) s) s md (colSet s.seq (s.slot md) v.toNat) :=
  (if_neg (ne_false_of_eq_true hv)).trans <| (if_neg (not_not.2 hj)).trans <| (if_neg nofun).trans <|
    (if_neg (not_not.2 hd)).trans (if_neg (not_not.2 hq))

/-- A row is read back from the slot that a command wrote. -/
theorem exec_getrow_of_writesSlot {r : Result} {m : Slot} (h : WritesSlot r s md m) (hv : m.valid = true)
    (hi : rowOk m v) : ∃ t, r = .next t ∧ exec (.getrow md v) t = .next (answered t 0 (m.word v.toNat)) := by
  have hm : ((s.setSlot md m).respond .ok 0).slot md = m := slot_setSlot_self s md m
  refine ⟨_, h, ?_⟩
  rw [exec_getrow (by rwa [hm]) (by rwa [hm]), hm]

/-- A column is read back from the slot that a command wrote. -/
theorem exec_getcol_of_writesSlot {r : Result} {m : Slot} (h : WritesSlot r s md m) (hv : m.valid = true)
    (hj : colOk m v) : ∃ t, r = .next t ∧ exec (.getcol md v) t = .next (answered t 0 (colGet m v.toNat)) := by
  have hm : ((s.setSlot md m).respond .ok 0).slot md = m := slot_setSlot_self s md m
  refine ⟨_, h, ?_⟩
  rw [exec_getcol (by rwa [hm]) (by rwa [hm]), hm]

end

/-- The row that SETROW wrote holds bit 0 of element `e` at bit `e`. -/
theorem getLsbD_setWord_seqPack (q : Vector Byte 64) (m : Slot) (n : Nat) {i e : Nat} (hi : i < 64) (he : e < 64) :
    ((m.setWord i (seqPack q n)).word i).getLsbD e = (decide (e < n) && (seqAt q e).getLsbD 0) := by
  rw [word_setWord, if_pos ⟨rfl, hi⟩, getLsbD_seqPack]
  simp only [he, and_true]

/-- The column that SETCOL wrote holds bit 0 of element `e` at bit `e`. -/
theorem getLsbD_colGet_colSet (q : Vector Byte 64) (m : Slot) {j e : Nat} (hj : j < 64) (he : e < 64) :
    (colGet (colSet q m j) j).getLsbD e = (decide (e < m.rows.toNat) && (seqAt q e).getLsbD 0) := by
  rw [getLsbD_colGet, getLsbD_word_colSet _ _ _ _ _ he hj, colSet_rows]
  by_cases h : e < m.rows.toNat
  · simp only [h, he, and_self, if_true]
  · simp only [h, false_and, decide_false, Bool.false_and]

/-- A binary element is 1 exactly when its bit 0 is. -/
theorem binary_element {es : List Byte} (hb : ∀ b ∈ es, b = 0 ∨ b = 1) {e : Nat} (he : e < es.length) :
    (es.getD e 0).toNat ≤ 1 ∧ (es.getD e 0).getLsbD 0 = decide (es[e]? = some 1) := by
  rw [List.getD_eq_getElem _ _ he, List.getElem?_eq_getElem he]
  rcases hb _ (List.getElem_mem he) with h | h <;> rw [h] <;> decide

/-- After LDSEQ of a binary sequence its length and SEQ pass the setters' checks, and bit 0 of each entry is the
element. -/
theorem execAll_ldseq_binary {es : List Byte} (hes : sequenceOk es) (hb : ∀ b ∈ es, b = 0 ∨ b = 1) (s : State) :
    ∃ t, execAll (ldseq es) s = .next t ∧ t.slots = s.slots ∧
      lengthOk (BitVec.ofNat 64 es.length) es.length ∧ seqOk t.seq es.length ∧
      ∀ e, (decide (e < es.length) && (seqAt t.seq e).getLsbD 0) = decide (es[e]? = some 1) := by
  obtain ⟨t, ht, -, hslots, hseq⟩ := ldseqLoadsSequence es s hes
  have hel (e : Nat) (he : e < es.length) : seqAt t.seq e = es.getD e 0 :=
    (hseq e (Nat.lt_of_lt_of_le he hes.2)).trans (if_pos he)
  have hlen : es.length < 2 ^ 64 := by omega
  refine ⟨t, ht, hslots, Nat.mod_eq_of_lt hlen, fun e he => ?_, fun e => ?_⟩
  · rw [hel e he]
    exact (binary_element hb he).1
  · by_cases he : e < es.length
    · rw [hel e he, (binary_element hb he).2, decide_eq_true he, Bool.true_and]
    · simp [he]

/-- Settles O44: LDSEQ makes SEQ hold the elements, the setter copies them, and the getter reads the copy. -/
theorem sequenceWritesReadBack : Obligations.SequenceWritesReadBack := by
  intro md v es s hs hv hb
  obtain ⟨hr1, hr64, hc1, hc64, -, -⟩ := hs md hv
  rw [slots_eq_slot] at *
  refine ⟨fun hi hlen => ?_, fun hj hlen => ?_⟩
  · obtain ⟨t, ht, hslots, hlok, hok, hbits⟩ := execAll_ldseq_binary (by omega) hb s
    have hslot : t.slot md = s.slot md := congrArg (·[md]) hslots
    rw [hlen, ← hslot] at hok hlok hbits
    rw [← hslot] at hv hi hr64
    have hset := exec_setrow hv hi hlok hok
    obtain ⟨u, hu, hget⟩ := exec_getrow_of_writesSlot hset hv hi
    refine ⟨u, _, (execAll_append _ ht).trans (execAll_singleton (hlen ▸ hslot ▸ hu)), hget, fun e he => ?_⟩
    rw [getLsbD_setWord_seqPack _ _ _ (by omega) he, hbits]
  · obtain ⟨t, ht, hslots, hlok, hok, hbits⟩ := execAll_ldseq_binary (by omega) hb s
    have hslot : t.slot md = s.slot md := congrArg (·[md]) hslots
    rw [hlen, ← hslot] at hok hlok hbits
    rw [← hslot] at hv hj hc64
    have hset := exec_setcol hv hj hlok hok
    obtain ⟨u, hu, hget⟩ := exec_getcol_of_writesSlot hset hv hj
    refine ⟨u, _, (execAll_append _ ht).trans (execAll_singleton (hlen ▸ hslot ▸ hu)), hget, fun e he => ?_⟩
    rw [getLsbD_colGet_colSet _ _ (by omega) he, hbits]

end Sys2Proof.Machine
end

section
/-! PROOF. The opcode map of R85 in the words of the statements: which command a word selects that matches a row, its
operands read as numbers from the bits of the word (R81, R82). -/

namespace Sys2Proof

open Sys2Proof.Machine Sys2Proof.Safety

/-- A 2-bit field is the slot number that division and remainder read. -/
theorem toFin_extractLsb' (w : CmdWord) (lo : Nat) : (w.extractLsb' lo 2).toFin = slotBits w lo := by
  apply Fin.ext
  rw [BitVec.val_toFin, BitVec.extractLsb'_toNat, Nat.shiftRight_eq_div_pow]
  rfl

/-- An 8-bit field read as `S8` is the signed number that division and remainder read. -/
theorem s8_extractLsb' (w : CmdWord) (lo : Nat) : s8 (w.extractLsb' lo 8) = signedBits w lo := by
  rw [s8, BitVec.toInt_eq_toNat_cond, BitVec.extractLsb'_toNat, Nat.shiftRight_eq_div_pow, signedBits]
  exact if_congr (by omega) rfl rfl

/-- A word that matches the row of an opcode selects the command that the opcode and the word's fields name. -/
theorem selects_commandOf (op : BitVec 4) : Selects (op.setWidth 32) fun w d =>
    commandOf op.toNat (slotBits w 4) (slotBits w 6) (slotBits w 8) (w.getLsbD 10) (signedBits w 12)
      (signedBits w 20) d := by
  intro w d h
  rw [decode_of_match h, mdField, maField, mbField, sField, iField, jField]
  simp only [toFin_extractLsb', s8_extractLsb']

end Sys2Proof
end

section
/-! PROOF. Construction and size (40_construction.md). NEW and NEWDEF write one slot with the zero matrix of a shape; a
zero matrix has no entry set, so its row space is trivial and RANK answers 0; SIZE packs the shape into two bytes. -/

namespace Sys2Proof.Machine

open Sys2Proof.Safety

/-! ### One written slot -/

section
variable {s : State} {md : SlotNum} {m : Slot} {r : Result}

/-- A command that writes one slot answers (OK, 0), and the slot holds what was written. -/
theorem next_of_writesSlot (h : WritesSlot r s md m) :
    ∃ t, r = .next t ∧ Answers t 0 0 ∧ WritesOnlySlot md s t ∧ t.slots[md] = m :=
  ⟨_, h, ⟨rfl, rfl, rfl⟩, ⟨fun k hk => slot_setSlot_ne s md k m hk, rfl, keepsChannel_write s (.slot md m)⟩,
    slot_setSlot_self s md m⟩

end

/-! ### What the commands answer -/

section
variable {s : State} {md ma : SlotNum} {r c : Int}

theorem exec_new_of_not_dimOk (h : ¬ dimOk r c) : exec (.new md r c) s = .next (answered s 1 0) :=
  if_pos h

theorem exec_new (h : dimOk r c) :
    WritesSlot (exec (.new md r c) s) s md (Slot.zero (BitVec.ofInt 7 r) (BitVec.ofInt 7 c)) :=
  if_neg (not_not.2 h)

/-- NEWDEF writes what NEW writes for the largest shape (R114). -/
theorem exec_newdef_eq_new (md : SlotNum) (s : State) : exec (.newdef md) s = exec (.new md 64 64) s := by
  have hnew : WritesSlot (exec (.new md 64 64) s) s md (Slot.zero 64 64) := exec_new (by decide)
  exact (execNewdef_cases md s).trans hnew.symm

theorem exec_size (hv : (s.slot ma).valid = true) :
    exec (.size ma) s = .next (answered s 0 (sizeWord (s.slot ma))) :=
  if_neg (ne_false_of_eq_true hv)

theorem exec_rank (hv : (s.slot ma).valid = true) :
    exec (.rank ma) s = .next (answered s 0 (BitVec.ofNat 64 (rankEng (s.slot ma)))) :=
  if_neg (ne_false_of_eq_true hv)

end

/-! ### The shape word -/

/-- The two dimensions stand in the two low bytes of SIZE's RESULT and do not overlap (R117). -/
theorem toNat_sizeWord (m : Slot) : (sizeWord m).toNat = m.cols.toNat * 256 + m.rows.toNat := by
  have hr : m.rows.toNat < 2 ^ 8 := by omega
  have hc : m.cols.toNat <<< 8 = m.cols.toNat * 256 := Nat.shiftLeft_eq _ 8
  rw [sizeWord, BitVec.toNat_or, BitVec.toNat_shiftLeft, BitVec.toNat_setWidth_of_le (by decide),
    BitVec.toNat_setWidth_of_le (by decide), Nat.mod_eq_of_lt (by omega), ← Nat.shiftLeft_add_eq_or_of_lt hr, hc]

/-- SIZE's RESULT for the shape that NEW was given. -/
theorem sizeWord_zero_ofInt {r c : Int} (h : dimOk r c) :
    sizeWord (Slot.zero (BitVec.ofInt 7 r) (BitVec.ofInt 7 c)) = BitVec.ofInt 64 (c * 256 + r) := by
  obtain ⟨⟨hr1, hr64⟩, hc1, hc64⟩ := h
  have hr := toNat_ofInt_dim hr1 hr64
  have hc := toNat_ofInt_dim hc1 hc64
  have hword : (sizeWord (Slot.zero (BitVec.ofInt 7 r) (BitVec.ofInt 7 c))).toNat =
      (BitVec.ofInt 7 c).toNat * 256 + (BitVec.ofInt 7 r).toNat := toNat_sizeWord _
  apply BitVec.eq_of_toNat_eq
  rw [hword, BitVec.toNat_ofInt (n := 64)]
  omega

/-! ### The zero matrix -/

theorem entry_zero (r c : BitVec 7) (i j : Nat) : entry (Slot.zero r c) i j = false := by
  rw [entry, word_zero]
  exact BitVec.getLsbD_zero

/-- The rows of a zero matrix span nothing. -/
theorem rankEng_zero (r c : BitVec 7) (hr : r.toNat ≤ 64) : rankEng (Slot.zero r c) = 0 := by
  have hclear : ClearedBelow c.toNat (Slot.zero r c).w 0 r.toNat := fun k _ _ j _ => entry_zero r c k j
  calc rankEng (Slot.zero r c) = Module.finrank (ZMod 2) (rowSpace c.toNat (Slot.zero r c).w 0 r.toNat) :=
        rankEng_eq_finrank _ hr
    _ = 0 := by rw [rowSpace_eq_bot hclear, finrank_bot]

/-- The readers see the zero matrix that NEW left in the slot (R115). -/
theorem exec_new_then_read {r c : Int} (h : dimOk r c) (md : SlotNum) (s : State) :
    ∃ t, exec (.new md r c) s = .next t ∧ (∀ i j, entry t.slots[md] i j = false) ∧
      exec (.rank md) t = .next (answered t 0 0) ∧
      exec (.size md) t = .next (answered t 0 (BitVec.ofInt 64 (c * 256 + r))) := by
  obtain ⟨t, ht, -, -, hslot⟩ := next_of_writesSlot (exec_new (md := md) (s := s) h)
  rw [slots_eq_slot] at hslot
  have hv : (t.slot md).valid = true := congrArg Slot.valid hslot
  obtain ⟨-, hrows, -⟩ := zero_ofInt_canonical h
  refine ⟨t, ht, fun i j => ?_, ?_, ?_⟩
  · rw [slots_eq_slot, hslot, entry_zero]
  · rw [exec_rank hv, hslot, rankEng_zero (BitVec.ofInt 7 r) (BitVec.ofInt 7 c) hrows]
    rfl
  · rw [exec_size hv, hslot, sizeWord_zero_ofInt h]

/-! ### The statements -/

/-- Settles O29: the check of both dimensions, and the zero matrix written when it passes. -/
theorem newMakesZeroMatrix : Obligations.NewMakesZeroMatrix := by
  refine ⟨selects_commandOf 0x0, fun md r c s => ⟨fun hbad => ?_, fun hr1 hr64 hc1 hc64 => ?_⟩⟩
  · exact exec_new_of_not_dimOk (by omega)
  · obtain ⟨t, ht, hans, hframe, hslot⟩ := next_of_writesSlot (exec_new (md := md) (s := s) ⟨⟨hr1, hr64⟩, hc1, hc64⟩)
    refine ⟨t, ht, hans, hframe, ?_⟩
    rw [hslot]
    exact ⟨rfl, toNat_ofInt_dim hr1 hr64, toNat_ofInt_dim hc1 hc64, fun k _ => word_zero _ _ k⟩

/-- Settles O30: NEWDEF writes the largest zero matrix, which is what NEW with 64 and 64 writes. -/
theorem newdefMakesFullZeroMatrix : Obligations.NewdefMakesFullZeroMatrix := by
  refine ⟨selects_commandOf 0x1, fun md s => ⟨?_, exec_newdef_eq_new md s⟩⟩
  obtain ⟨t, ht, hans, hframe, hslot⟩ := next_of_writesSlot (execNewdef_cases md s)
  refine ⟨t, ht, hans, hframe, ?_⟩
  rw [hslot]
  exact ⟨rfl, rfl, rfl, fun k _ => word_zero _ _ k⟩

/-- Settles O31: the shape of a valid slot, packed into two bytes. -/
theorem sizeReportsShape : Obligations.SizeReportsShape := by
  refine ⟨selects_commandOf 0xC, fun ma s => ⟨fun he => ?_, fun hv => ⟨_, exec_size hv, ?_⟩⟩⟩
  · exact exec_of_empty_operand (.size ma) s ma (List.mem_singleton_self ma) he
  · rw [toNat_sizeWord, slots_eq_slot]
    omega

/-- Settles O32: the readers see what NEW left in the slot, and NEWDEF is NEW with 64 and 64. -/
theorem freshMatrixHasRankZero : Obligations.FreshMatrixHasRankZero := by
  refine ⟨fun md r c s hr1 hr64 hc1 hc64 => exec_new_then_read ⟨⟨hr1, hr64⟩, hc1, hc64⟩ md s, fun md s => ?_⟩
  rw [exec_newdef_eq_new]
  exact exec_new_then_read (by decide) md s

end Sys2Proof.Machine
end

section
/-! PROOF. The element getter and setter (41_element_access.md). Both make the same two checks, SET a third one of its
value; a SET that passes them replaces one entry of its slot, which GET then reads. -/

namespace Sys2Proof.Machine

open Sys2Proof.Safety

/-! ### One entry -/

/-- The slot with entry `(i, j)` replaced, as SET writes it (R134). -/
def Slot.setEntry (m : Slot) (i j : Nat) (b : Bool) : Slot := m.setWord i (brep (m.word i) j b)

/-- `setEntry` replaces one entry of 64 by 64. -/
theorem entry_setEntry (m : Slot) (i j : Nat) (b : Bool) {i' j' : Nat} (hi : i' < 64) (hj : j' < 64) :
    entry (m.setEntry i j b) i' j' = if i' = i ∧ j' = j then b else entry m i' j' := by
  rw [entry, entry, Slot.setEntry, word_setWord]
  by_cases h : i' = i
  · subst h
    simp only [hi, and_self, if_true, true_and, getLsbD_brep _ _ _ _ hj]
  · simp only [h, false_and, if_false]

/-- The response to GET is the entry as a word. -/
theorem zextBit_eq_ite (b : Bool) : zextBit b = if b = true then 1 else 0 := by
  cases b <;> rfl

/-- The bit that SET takes from DATA says which of the two legal values DATA is. -/
theorem getLsbD_zero_of_valueOk {v : Word} (h : valueOk v) : v.getLsbD 0 = decide (v = 1) := by
  rcases h with rfl | rfl <;> rfl

/-- A legal value is the word of its one bit. -/
theorem ite_eq_one_of_valueOk {v : Word} (h : valueOk v) : (if decide (v = 1) = true then 1 else 0) = v := by
  rcases h with rfl | rfl <;> rfl

/-! ### What the commands answer -/

section
variable {s : State} {ma md : SlotNum} {i j : Int} {v : Word}

theorem exec_get_of_not_in (hv : (s.slot ma).valid = true) (h : ¬ (rowOk (s.slot ma) i ∧ colOk (s.slot ma) j)) :
    exec (.get ma i j) s = .next (answered s 2 0) :=
  (if_neg (ne_false_of_eq_true hv)).trans (if_pos h)

theorem exec_get (hv : (s.slot ma).valid = true) (hi : rowOk (s.slot ma) i) (hj : colOk (s.slot ma) j) :
    exec (.get ma i j) s =
      .next (answered s 0 (if entry (s.slot ma) i.toNat j.toNat = true then 1 else 0)) := by
  rw [entry, ← bext_eq_getLsbD, ← zextBit_eq_ite]
  exact (if_neg (ne_false_of_eq_true hv)).trans (if_neg (not_not.2 ⟨hi, hj⟩))

theorem exec_set_of_not_in (hv : (s.slot md).valid = true) (h : ¬ (rowOk (s.slot md) i ∧ colOk (s.slot md) j)) :
    exec (.set md i j v) s = .next (answered s 2 0) :=
  (if_neg (ne_false_of_eq_true hv)).trans (if_pos h)

theorem exec_set_of_not_valueOk (hv : (s.slot md).valid = true) (hi : rowOk (s.slot md) i)
    (hj : colOk (s.slot md) j) (h : ¬ valueOk v) : exec (.set md i j v) s = .next (answered s 3 0) :=
  (if_neg (ne_false_of_eq_true hv)).trans <| (if_neg (not_not.2 ⟨hi, hj⟩)).trans (if_pos h)

theorem exec_set (hv : (s.slot md).valid = true) (hi : rowOk (s.slot md) i) (hj : colOk (s.slot md) j)
    (h : valueOk v) : WritesSlot (exec (.set md i j v) s) s md
      ((s.slot md).setEntry i.toNat j.toNat (decide (v = 1))) := by
  rw [← getLsbD_zero_of_valueOk h]
  exact (if_neg (ne_false_of_eq_true hv)).trans <| (if_neg (not_not.2 ⟨hi, hj⟩)).trans (if_neg (not_not.2 h))

/-- A SET that answers OK passed its three checks. -/
theorem checks_of_exec_set {t : State} (h : exec (.set md i j v) s = .next t) (hok : t.rspStatus = 0) :
    (s.slot md).valid = true ∧ rowOk (s.slot md) i ∧ colOk (s.slot md) j ∧ valueOk v := by
  rcases execSet_cases md i j v s with ⟨st, hst, hfail⟩ | ⟨hv, hi, hj, hval, -⟩
  · cases h.symm.trans hfail
    cases st with
    | ok => exact absurd rfl hst
    | _ => cases hok
  · exact ⟨hv, hi, hj, hval⟩

end

/-! ### The statements -/

/-- Settles O33: the checks in their order, and the entry read when both pass. -/
theorem getReadsEntry : Obligations.GetReadsEntry := by
  refine ⟨selects_commandOf 0x2, fun ma i j s => ⟨fun he => ?_, exec_get_of_not_in, exec_get⟩⟩
  exact exec_of_empty_operand (.get ma i j) s ma (List.mem_singleton_self ma) he

/-- Settles O34: the checks in their order, and the entry replaced when all pass. -/
theorem setWritesOneEntry : Obligations.SetWritesOneEntry := by
  refine ⟨selects_commandOf 0x3, fun md i j v s _ =>
    ⟨fun he => ?_, exec_set_of_not_in, fun hv hi hj h0 h1 => ?_, fun hv hi hj hval => ?_⟩⟩
  · exact exec_of_empty_operand (.set md i j v) s md (List.mem_singleton_self md) he
  · exact exec_set_of_not_valueOk hv hi hj (not_or.2 ⟨h0, h1⟩)
  · obtain ⟨t, ht, hans, hframe, hslot⟩ := next_of_writesSlot (exec_set hv hi hj hval)
    refine ⟨t, ht, hans, hframe, ?_⟩
    rw [hslot]
    refine ⟨⟨rfl, rfl, rfl⟩, fun i' j' hi' hj' => ?_⟩
    rw [entry_setEntry _ _ _ _ hi' hj']
    exact if_congr (by omega) rfl rfl

/-- Settles O35: what SET writes of the slot, by O34, and GET at the entry that it wrote. -/
theorem setThenGetReturnsValue : Obligations.SetThenGetReturnsValue := by
  intro md i j v s t hs h hok
  obtain ⟨hv, hi, hj, hval⟩ := checks_of_exec_set h hok
  obtain ⟨-, hr64, -, hc64, -, -⟩ := hs md hv
  obtain ⟨-, -, -, hset⟩ := setWritesOneEntry.2 md i j v s hs
  obtain ⟨u, hu, -, -, ⟨hvalid, hrows, hcols⟩, hentry⟩ := hset hv hi hj hval
  cases h.symm.trans hu
  simp only [slots_eq_slot] at hr64 hc64 hvalid hrows hcols hentry ⊢
  refine ⟨?_, fun i' j' hi' hj' hne => (hentry i' j' hi' hj').trans (if_neg hne)⟩
  have hread := hentry i.toNat j.toNat (by omega) (by omega)
  rw [if_pos ⟨by omega, by omega⟩] at hread
  rw [exec_get (hvalid.trans hv) (by rwa [rowOk, hrows]) (by rwa [colOk, hcols]), hread,
    ite_eq_one_of_valueOk hval]

end Sys2Proof.Machine
end

section
/-! PROOF. Row and column access (42_row_column_access.md). GETROW and GETCOL make one check of their index; SETROW and
SETCOL make the same five checks in the same order and differ in what they write, so the checks are said once for both;
SEQLD loads one octet of SEQ. -/

namespace Sys2Proof.Machine

open Sys2Proof.Safety

/-! ### Elements of the sequence buffer -/

theorem toNat_le_one_iff (b : Byte) : b.toNat ≤ 1 ↔ b = 0 ∨ b = 1 := by
  rw [Nat.le_one_iff_eq_zero_or_eq_one]
  exact or_congr (BitVec.toNat_inj (y := 0)) (BitVec.toNat_inj (y := 1))

/-- `SEQOK` in the words of the statements. -/
theorem seqOk_iff_binary (s : State) (n : Nat) : seqOk s.seq n ↔ Binary s n :=
  forall₂_congr fun e _ => toNat_le_one_iff (seqAt s.seq e)

/-- The bit that the setters take of a binary element says whether the element is 1. -/
theorem getLsbD_zero_of_toNat_le_one {b : Byte} (h : b.toNat ≤ 1) : b.getLsbD 0 = decide (b = 1) := by
  rcases (toNat_le_one_iff b).1 h with rfl | rfl <;> rfl

/-- The same of the first `n` elements of a sequence that passed its check. -/
theorem decide_and_getLsbD_of_seqOk {q : Vector Byte 64} {n : Nat} (hq : seqOk q n) (e : Nat) :
    (decide (e < n) && (seqAt q e).getLsbD 0) = decide (e < n ∧ seqAt q e = 1) := by
  by_cases he : e < n
  · simp only [he, getLsbD_zero_of_toNat_le_one (hq e he), decide_true, Bool.true_and, true_and]
  · simp only [he, decide_false, Bool.false_and, false_and]

/-- Byte lane `e` of DATA as a number (R54). -/
theorem toNat_byteLane (d : Word) (e : Nat) : (byteLane d e).toNat = d.toNat / 2 ^ (8 * e) % 256 := by
  rw [byteLane, BitVec.extractLsb'_toNat, Nat.shiftRight_eq_div_pow]

/-! ### The padding of a row -/

theorem getLsbD_word_of_cols_le {m : Slot} (hm : m.canonical) (i : Nat) {j : Nat} (hj : m.cols.toNat ≤ j) :
    (m.word i).getLsbD j = false := by
  by_contra h
  have hin := ((canonical_iff m).1 hm).2 i j (eq_true_of_ne_false h)
  omega

/-! ### An answer of OK -/

/-- A command that answers OK did not fail. -/
theorem not_failsWith_of_ok {r : Result} {t : State} (h : r = .next t) (hok : t.rspStatus = 0) : ¬ FailsWith r s := by
  rintro ⟨st, hst, hfail⟩
  cases h.symm.trans hfail
  cases st with
  | ok => exact hst rfl
  | _ => cases hok

/-! ### The five checks of SETROW and SETCOL -/

/-- What SETROW and SETCOL share (R158, R164): their checks in the order of R224, where `inside` says that the index lies
in the matrix and `n` is the length required of the sequence, and then the write of `m` to slot `md`. -/
def setFromSeq (md : SlotNum) (inside : Prop) [Decidable inside] (n : Nat) (q : Bool) (d : Word) (m : Slot)
    (s : State) : Result :=
  if (s.slot md).valid = false then fail .slotEmpty s
  else if ¬ inside then fail .indexOutOfBounds s
  else if q = false then fail .typeNotIndexable s
  else if ¬ lengthOk d n then fail .lengthMismatch s
  else if ¬ seqOk s.seq n then fail .invalidValue s
  else succeed 0 (s.setSlot md m)

theorem exec_setrow_eq_setFromSeq (md : SlotNum) (i : Int) (q : Bool) (d : Word) (s : State) :
    exec (.setrow md i q d) s = setFromSeq md (rowOk (s.slot md) i) (s.slot md).cols.toNat q d
      ((s.slot md).setWord i.toNat (seqPack s.seq (s.slot md).cols.toNat)) s := rfl

theorem exec_setcol_eq_setFromSeq (md : SlotNum) (j : Int) (q : Bool) (d : Word) (s : State) :
    exec (.setcol md j q d) s = setFromSeq md (colOk (s.slot md) j) (s.slot md).rows.toNat q d
      (colSet s.seq (s.slot md) j.toNat) s := rfl

section
variable {s : State} {md : SlotNum} {inside : Prop} [Decidable inside] {n : Nat} {q : Bool} {d : Word} {m : Slot}

theorem setFromSeq_of_not_inside (hv : (s.slot md).valid = true) (h : ¬ inside) :
    setFromSeq md inside n q d m s = .next (answered s 2 0) :=
  (if_neg (ne_false_of_eq_true hv)).trans (if_pos h)

theorem setFromSeq_of_scalar (hv : (s.slot md).valid = true) (hin : inside) (h : q = false) :
    setFromSeq md inside n q d m s = .next (answered s 5 0) :=
  (if_neg (ne_false_of_eq_true hv)).trans <| (if_neg (not_not.2 hin)).trans (if_pos h)

theorem setFromSeq_of_not_lengthOk (hv : (s.slot md).valid = true) (hin : inside) (hq : q = true)
    (h : ¬ lengthOk d n) : setFromSeq md inside n q d m s = .next (answered s 4 0) :=
  (if_neg (ne_false_of_eq_true hv)).trans <| (if_neg (not_not.2 hin)).trans <|
    (if_neg (ne_false_of_eq_true hq)).trans (if_pos h)

theorem setFromSeq_of_not_binary (hv : (s.slot md).valid = true) (hin : inside) (hq : q = true)
    (hd : lengthOk d n) (h : ¬ Binary s n) : setFromSeq md inside n q d m s = .next (answered s 3 0) :=
  (if_neg (ne_false_of_eq_true hv)).trans <| (if_neg (not_not.2 hin)).trans <|
    (if_neg (ne_false_of_eq_true hq)).trans <| (if_neg (not_not.2 hd)).trans (if_pos (mt (seqOk_iff_binary s n).1 h))

/-- The checks read of SEQ whether its first `n` elements are binary, and nothing else. -/
theorem setFromSeq_with_seq {seq' : Vector Byte 64} (h : seqOk seq' n ↔ seqOk s.seq n) :
    ∃ t, setFromSeq md inside n q d m s = .next t ∧
      setFromSeq md inside n q d m { s with seq := seq' } = .next { t with seq := seq' } := by
  have hslot : ({ s with seq := seq' } : State).slot md = s.slot md := rfl
  simp only [setFromSeq, hslot, h]
  split_ifs <;> exact ⟨_, rfl, rfl⟩

end

/-! ### What SETROW and SETCOL write -/

/-- SETROW replaces one row, the bits past the last column by 0. -/
theorem entry_setWord_seqPack {q : Vector Byte 64} (m : Slot) {n : Nat} (hq : seqOk q n) (i : Nat) {i' j' : Nat}
    (hi : i' < 64) (hj : j' < 64) : entry (m.setWord i (seqPack q n)) i' j' =
      if i' = i then decide (j' < n ∧ seqAt q j' = 1) else entry m i' j' := by
  by_cases h : i' = i
  · subst h
    rw [entry, getLsbD_setWord_seqPack q m n hi hj, decide_and_getLsbD_of_seqOk hq, if_pos rfl]
  · rw [entry, word_setWord, if_neg (fun hw => h hw.1), if_neg h, entry]

/-- SETCOL replaces one bit of each of the matrix's rows. -/
theorem entry_colSet {q : Vector Byte 64} {m : Slot} (hq : seqOk q m.rows.toNat) (j : Nat) {i' j' : Nat}
    (hi : i' < 64) (hj : j' < 64) : entry (colSet q m j) i' j' =
      if j' = j ∧ i' < m.rows.toNat then decide (seqAt q i' = 1) else entry m i' j' := by
  rw [entry, getLsbD_word_colSet q m j i' j' hi hj]
  by_cases h : i' < m.rows.toNat
  · simp only [h, getLsbD_zero_of_toNat_le_one (hq i' h), true_and, and_true, entry]
  · simp only [h, false_and, and_false, if_false, entry]

/-! ### Elements that SETROW and SETCOL do not read -/

section
variable {q q' : Vector Byte 64} {n : Nat}

theorem seqOk_congr (h : ∀ e, e < n → seqAt q' e = seqAt q e) : seqOk q' n ↔ seqOk q n :=
  forall₂_congr fun e he => by rw [h e he]

theorem seqPack_congr (h : ∀ e, e < n → seqAt q' e = seqAt q e) : seqPack q' n = seqPack q n := by
  apply BitVec.eq_of_getLsbD_eq
  intro e _
  rw [getLsbD_seqPack, getLsbD_seqPack]
  by_cases he : e < n
  · rw [h e he]
  · simp only [he, false_and, decide_false, Bool.false_and]

theorem colSet_congr (m : Slot) (j : Nat) (h : ∀ e, e < m.rows.toNat → seqAt q' e = seqAt q e) :
    colSet q' m j = colSet q m j := by
  have hwords : (colSet q' m j).w = (colSet q m j).w := by
    refine congrArg (tabulate 64) (funext fun x => ?_)
    split
    · next hx => rw [h x hx]
    · rfl
  exact congrArg (fun w => { m with w := w }) hwords

end

/-! ### What GETROW, GETCOL and SEQLD answer -/

section
variable {s : State} {ma : SlotNum} {v : Int}

theorem exec_getrow_of_not_rowOk (hv : (s.slot ma).valid = true) (h : ¬ rowOk (s.slot ma) v) :
    exec (.getrow ma v) s = .next (answered s 2 0) :=
  (if_neg (ne_false_of_eq_true hv)).trans (if_pos h)

theorem exec_getcol_of_not_colOk (hv : (s.slot ma).valid = true) (h : ¬ colOk (s.slot ma) v) :
    exec (.getcol ma v) s = .next (answered s 2 0) :=
  (if_neg (ne_false_of_eq_true hv)).trans (if_pos h)

theorem exec_seqld_of_not_octetOk (d : Word) (h : ¬ octetOk v) : exec (.seqld v d) s = .next (answered s 2 0) :=
  if_pos h

end

/-! ### The statements -/

/-- Settles O37: the five checks in their order, and the row replaced when all pass. -/
theorem setrowReplacesRow : Obligations.SetrowReplacesRow := by
  refine ⟨selects_commandOf 0x5, fun md i q d s _ => ?_⟩
  have hladder := exec_setrow_eq_setFromSeq md i q d s
  refine ⟨fun he => ?_, fun hv h => hladder.trans (setFromSeq_of_not_inside hv h),
    fun hv hi h => hladder.trans (setFromSeq_of_scalar hv hi h),
    fun hv hi hq h => hladder.trans (setFromSeq_of_not_lengthOk hv hi hq h),
    fun hv hi hq hd h => hladder.trans (setFromSeq_of_not_binary hv hi hq hd h), fun hv hi hq hd hbin => ?_⟩
  · exact exec_of_empty_operand (.setrow md i q d) s md (List.mem_singleton_self md) he
  · subst hq
    have hok : seqOk s.seq (s.slot md).cols.toNat := (seqOk_iff_binary s _).2 hbin
    obtain ⟨t, ht, hans, hframe, hslot⟩ := next_of_writesSlot (exec_setrow hv hi hd hok)
    refine ⟨t, ht, hans, hframe, ?_⟩
    rw [hslot]
    refine ⟨⟨rfl, rfl, rfl⟩, fun i' j' hi' hj' => ?_⟩
    rw [entry_setWord_seqPack _ hok _ hi' hj']
    exact if_congr (by omega) rfl rfl

/-- Settles O38: the check of the index, and the column gathered when it passes. -/
theorem getcolReadsColumnWord : Obligations.GetcolReadsColumnWord := by
  refine ⟨selects_commandOf 0x6, fun ma j s _ =>
    ⟨fun he => ?_, exec_getcol_of_not_colOk, fun hv hj => ⟨_, exec_getcol hv hj, fun i hi => ?_⟩⟩⟩
  · exact exec_of_empty_operand (.getcol ma j) s ma (List.mem_singleton_self ma) he
  · rw [getLsbD_colGet, Bool.decide_and, decide_eq_true hi, Bool.and_true]
    rfl

/-- Settles O39: the five checks in their order, and the column replaced when all pass. -/
theorem setcolReplacesColumn : Obligations.SetcolReplacesColumn := by
  refine ⟨selects_commandOf 0x7, fun md j q d s _ => ?_⟩
  have hladder := exec_setcol_eq_setFromSeq md j q d s
  refine ⟨fun he => ?_, fun hv h => hladder.trans (setFromSeq_of_not_inside hv h),
    fun hv hj h => hladder.trans (setFromSeq_of_scalar hv hj h),
    fun hv hj hq h => hladder.trans (setFromSeq_of_not_lengthOk hv hj hq h),
    fun hv hj hq hd h => hladder.trans (setFromSeq_of_not_binary hv hj hq hd h), fun hv hj hq hd hbin => ?_⟩
  · exact exec_of_empty_operand (.setcol md j q d) s md (List.mem_singleton_self md) he
  · subst hq
    have hok : seqOk s.seq (s.slot md).rows.toNat := (seqOk_iff_binary s _).2 hbin
    obtain ⟨t, ht, hans, hframe, hslot⟩ := next_of_writesSlot (exec_setcol hv hj hd hok)
    refine ⟨t, ht, hans, hframe, ?_⟩
    rw [hslot]
    refine ⟨⟨rfl, rfl, rfl⟩, fun i' j' hi' hj' => ?_⟩
    rw [entry_colSet hok _ hi' hj']
    exact if_congr (and_congr_left' (by omega)) rfl rfl

/-- Settles O40: the check of the octet index, and each entry of the loaded SEQ inside and outside the octet. -/
theorem seqldLoadsOctet : Obligations.SeqldLoadsOctet := by
  refine ⟨selects_commandOf 0xD, fun k d s => ⟨fun hk => exec_seqld_of_not_octetOk d (by omega), fun h0 h7 => ?_⟩⟩
  obtain ⟨k, rfl⟩ := Int.eq_ofNat_of_zero_le h0
  refine ⟨_, exec_seqld (by omega) d s, ⟨rfl, rfl, rfl⟩, rfl, keepsChannel_write s (.seq (seqLoad s.seq k d)),
    fun e he => ?_, fun e he hout => ?_⟩
  · rw [Int.toNat_natCast, respond_seq, seqAt_seqLoad _ _ _ _ (by omega), if_pos (by omega), Nat.mul_add_mod,
      Nat.mod_eq_of_lt he, toNat_byteLane]
  · rw [respond_seq, seqAt_seqLoad _ _ _ _ he, if_neg (by omega)]

/-- Settles O41: a setter that answers OK passed its checks, so the getter's hold too, and it reads what was written. -/
theorem rowAndColumnRoundTrips : Obligations.RowAndColumnRoundTrips := by
  refine ⟨fun md i d s t hs h hok => ?_, fun md j d s t hs h hok => ?_⟩
  · rcases execSetrow_cases md i true d s with hfail | ⟨hv, hi, -, -, hseq, hset⟩
    · exact absurd hfail (not_failsWith_of_ok h hok)
    · obtain ⟨-, hr64, -⟩ := slot_canonical hs hv
      obtain ⟨u, hu, hget⟩ := exec_getrow_of_writesSlot hset hv hi
      cases h.symm.trans hu
      refine ⟨_, hget, fun e he => ?_⟩
      rw [getLsbD_setWord_seqPack _ _ _ (by omega) he]
      exact decide_and_getLsbD_of_seqOk hseq e
  · rcases execSetcol_cases md j true d s with hfail | ⟨hv, hj, -, -, hseq, hset⟩
    · exact absurd hfail (not_failsWith_of_ok h hok)
    · obtain ⟨-, -, -, hc64, -⟩ := slot_canonical hs hv
      obtain ⟨u, hu, hget⟩ := exec_getcol_of_writesSlot hset hv hj
      cases h.symm.trans hu
      refine ⟨_, hget, fun e he => ?_⟩
      rw [getLsbD_colGet_colSet _ _ (by omega) he]
      exact decide_and_getLsbD_of_seqOk hseq e

/-- Settles O42: from either content of SEQ the checks answer alike and the same matrix is written. -/
theorem elementsBeyondLengthUnread : Obligations.ElementsBeyondLengthUnread := by
  intro md v q d s seq'
  have hslot : ({ s with seq := seq' } : State).slot md = s.slot md := rfl
  simp only [slots_eq_slot, exec_setrow_eq_setFromSeq, exec_setcol_eq_setFromSeq, hslot]
  refine ⟨fun h => ?_, fun h => ?_⟩
  · rw [seqPack_congr h]
    exact setFromSeq_with_seq (seqOk_congr h)
  · rw [colSet_congr _ _ h]
    exact setFromSeq_with_seq (seqOk_congr h)

/-- Settles O36: the check of the index, and the row's word, which R24 pads with 0. -/
theorem getrowReadsRowWord : Obligations.GetrowReadsRowWord := by
  refine ⟨selects_commandOf 0x4, fun ma i s hs => ⟨fun he => ?_, exec_getrow_of_not_rowOk, fun hv hi =>
    ⟨exec_getrow hv hi, fun j hj => getLsbD_word_of_cols_le (hs ma hv) i.toNat hj⟩⟩⟩
  exact exec_of_empty_operand (.getrow ma i) s ma (List.mem_singleton_self ma) he

end Sys2Proof.Machine
end

section
/-! PROOF. Arithmetic over GF(2) (43_arithmetic.md). ADD and SUB are one rule: the same checks, and a sum that is its own
difference in characteristic 2. An entry of what MUL writes is the parity of a count of common ones, and a sum over GF(2)
is the parity of the number of its ones, so the slot that MUL writes is the matrix product. -/

namespace Sys2Proof.Machine

open Sys2Proof.Safety

/-! ### What the commands answer -/

section
variable {md ma mb : SlotNum} {s : State}

theorem exec_sub_eq_add (md ma mb : SlotNum) (s : State) : exec (.sub md ma mb) s = exec (.add md ma mb) s := rfl

/-- Valid sources pass the first check of ADD, SUB and MUL. -/
theorem not_empty_of_valid (ha : (s.slot ma).valid = true) (hb : (s.slot mb).valid = true) :
    ¬ ((s.slot ma).valid = false ∨ (s.slot mb).valid = false) :=
  not_or.2 ⟨ne_false_of_eq_true ha, ne_false_of_eq_true hb⟩

theorem exec_add_of_not_sameShape (ha : (s.slot ma).valid = true) (hb : (s.slot mb).valid = true)
    (h : ¬ sameShape (s.slot ma) (s.slot mb)) : exec (.add md ma mb) s = .next (answered s 6 0) :=
  (if_neg (not_empty_of_valid ha hb)).trans (if_pos h)

theorem exec_add (ha : (s.slot ma).valid = true) (hb : (s.slot mb).valid = true)
    (h : sameShape (s.slot ma) (s.slot mb)) :
    WritesSlot (exec (.add md ma mb) s) s md (xorSlots (s.slot ma) (s.slot mb)) :=
  (if_neg (not_empty_of_valid ha hb)).trans (if_neg (not_not.2 h))

theorem exec_mul_of_not_innerOk (ha : (s.slot ma).valid = true) (hb : (s.slot mb).valid = true)
    (h : ¬ innerOk (s.slot ma) (s.slot mb)) : exec (.mul md ma mb) s = .next (answered s 6 0) :=
  (if_neg (not_empty_of_valid ha hb)).trans (if_pos h)

theorem exec_mul (ha : (s.slot ma).valid = true) (hb : (s.slot mb).valid = true)
    (h : innerOk (s.slot ma) (s.slot mb)) :
    WritesSlot (exec (.mul md ma mb) s) s md (mulSlots (s.slot ma) (s.slot mb)) :=
  (if_neg (not_empty_of_valid ha hb)).trans (if_neg (not_not.2 h))

end

/-! ### The sum -/

theorem entry_xorSlots (a b : Slot) (i j : Nat) : entry (xorSlots a b) i j = (entry a i j != entry b i j) := by
  rw [entry, word_xorSlots, BitVec.getLsbD_xor, Bool.xor, entry, entry]

theorem xorSlots_comm {a b : Slot} (h : sameShape a b) : xorSlots a b = xorSlots b a := by
  have hw : (xorSlots a b).w = (xorSlots b a).w := words_ext fun k _ => by
    have ha := word_xorSlots a b k
    have hb := word_xorSlots b a k
    rw [BitVec.xor_comm] at hb
    exact ha.trans hb.symm
  obtain ⟨hr, hc⟩ := h
  rw [xorSlots, xorSlots, Slot.mk.injEq]
  exact ⟨rfl, hr, hc, hw⟩

theorem word_xorSlots_self (a : Slot) (k : Nat) : (xorSlots a a).word k = 0 := by
  rw [word_xorSlots, BitVec.xor_self]
  rfl

/-- In characteristic 2 the sum is the difference. -/
theorem toMatrix_xorSlots (a b : Slot) (r c : Nat) :
    toMatrix (xorSlots a b) r c = toMatrix a r c - toMatrix b r c := by
  funext i
  have hrow (m : Slot) : toMatrix m r c i = rowVec c (m.word i) := rfl
  calc toMatrix (xorSlots a b) r c i = toMatrix a r c i + toMatrix b r c i := by
        rw [hrow, hrow, hrow, word_xorSlots, rowVec_xor]
    _ = toMatrix a r c i - toMatrix b r c i := funext fun _ => (CharTwo.sub_eq_add _ _).symm

/-- ADD checks and writes alike in both orders of its sources (R188). -/
theorem exec_add_comm (md ma mb : SlotNum) (s : State) : exec (.add md ma mb) s = exec (.add md mb ma) s := by
  by_cases he : (s.slot ma).valid = false ∨ (s.slot mb).valid = false
  · exact (addSlots_of_empty he).trans (addSlots_of_empty he.symm).symm
  · obtain ⟨ha, hb⟩ := not_or.1 he
    rw [Bool.not_eq_false] at ha hb
    have hsymm : sameShape (s.slot mb) (s.slot ma) ↔ sameShape (s.slot ma) (s.slot mb) :=
      and_congr eq_comm eq_comm
    by_cases h : sameShape (s.slot ma) (s.slot mb)
    · have hab : WritesSlot (exec (.add md ma mb) s) s md (xorSlots (s.slot ma) (s.slot mb)) := exec_add ha hb h
      rw [xorSlots_comm h] at hab
      exact hab.trans (exec_add hb ha (hsymm.2 h)).symm
    · exact (exec_add_of_not_sameShape ha hb h).trans (exec_add_of_not_sameShape hb ha (mt hsymm.1 h)).symm

/-! ### The product -/

/-- How many positions of row `i` of `a` and column `j` of `b` are both 1 (R181, R186). -/
def commonOnes (a b : Slot) (i j : Nat) : Nat :=
  (List.range 64).countP fun x => entry a i x && decide (x < b.rows.toNat) && entry b x j

theorem dot_word_colGet (a b : Slot) (i j : Nat) :
    dot (a.word i) (colGet b j) = decide (commonOnes a b i j % 2 = 1) := by
  have hbit : ∀ x ∈ List.range 64, ((a.word i).getLsbD x && (colGet b j).getLsbD x) = true ↔
      (entry a i x && decide (x < b.rows.toNat) && entry b x j) = true := by
    intro x hx
    rw [getLsbD_colGet, Bool.decide_and, decide_eq_true (List.mem_range.1 hx), Bool.and_true, Bool.and_assoc, entry,
      entry]
  rw [dot_eq_countP, List.countP_congr hbit, commonOnes, beq_eq_decide]

theorem entry_mulSlots (a b : Slot) {i j : Nat} (hi : i < 64) (hj : j < 64) : entry (mulSlots a b) i j =
    decide (i < a.rows.toNat ∧ j < b.cols.toNat ∧ commonOnes a b i j % 2 = 1) := by
  rw [entry, getLsbD_word_mulSlots a b i j hi, dot_word_colGet]
  simp only [hj, and_true, Bool.decide_and, Bool.and_assoc]

/-- A count over GF(2) is its parity. -/
theorem natCast_zmod_two (n : Nat) : (n : ZMod 2) = if n % 2 = 1 then 1 else 0 := by
  rw [← ZMod.natCast_mod]
  rcases Nat.mod_two_eq_zero_or_one n with h | h <;> simp [h]

/-- The sum over GF(2) of the products of a row and a column counts their common ones. -/
theorem sum_mul_toMatrix (a b : Slot) {r c : Nat} (hb : b.rows.toNat ≤ 64) (i : Fin r) (j : Fin c) :
    ∑ x, toMatrix a r b.rows.toNat i x * toMatrix b b.rows.toNat c x j = (commonOnes a b i j : ZMod 2) := by
  have hset : (Finset.range b.rows.toNat).filter (fun x => entry a i x = true ∧ entry b x j = true) =
      (Finset.range 64).filter fun x => (entry a i x && decide (x < b.rows.toNat) && entry b x j) = true := by
    ext x
    simp only [Finset.mem_filter, Finset.mem_range, Bool.and_eq_true, decide_eq_true_eq]
    constructor
    · rintro ⟨hx, ha, hb'⟩
      exact ⟨by omega, ⟨ha, hx⟩, hb'⟩
    · rintro ⟨-, ⟨ha, hx⟩, hb'⟩
      exact ⟨hx, ha, hb'⟩
  calc ∑ x, toMatrix a r b.rows.toNat i x * toMatrix b b.rows.toNat c x j
      = ∑ x : Fin b.rows.toNat, if entry a i x = true ∧ entry b x j = true then 1 else 0 :=
        Finset.sum_congr rfl fun x _ => (ite_zero_mul_ite_zero _ _ 1 1).trans (by rw [mul_one])
    _ = ∑ x ∈ Finset.range b.rows.toNat, if entry a i x = true ∧ entry b x j = true then 1 else 0 :=
        Fin.sum_univ_eq_sum_range (fun x => if entry a i x = true ∧ entry b x j = true then (1 : ZMod 2) else 0) _
    _ = (commonOnes a b i j : ZMod 2) := by
        rw [Finset.sum_boole, hset, ← Nat.count_eq_card_filter_range]
        simp only [Nat.count, commonOnes, Bool.decide_eq_true]

/-- What MUL writes is the matrix product (R189). -/
theorem toMatrix_mulSlots {a b : Slot} (ha : a.canonical) (hb : b.canonical) (h : innerOk a b) :
    toMatrix (mulSlots a b) a.rows.toNat b.cols.toNat =
      toMatrix a a.rows.toNat a.cols.toNat * toMatrix b a.cols.toNat b.cols.toNat := by
  obtain ⟨-, har, -⟩ := ha
  obtain ⟨-, hbr, -, hbc, -⟩ := hb
  ext i j
  rw [h, Matrix.mul_apply, sum_mul_toMatrix a b hbr, natCast_zmod_two, toMatrix, Matrix.of_apply,
    entry_mulSlots a b (by omega) (by omega)]
  exact if_congr (by simp only [i.isLt, j.isLt, true_and, decide_eq_true_eq]) rfl rfl

/-! ### The statements -/

/-- Settles O45: the checks in their order, and the XOR of the words when both pass. -/
theorem addXorsEntries : Obligations.AddXorsEntries := by
  refine ⟨selects_commandOf 0x8, fun md ma mb s => ⟨addSlots_of_empty, fun ha hb h => ?_, fun ha hb hr hc => ?_⟩⟩
  · exact exec_add_of_not_sameShape ha hb (not_and_or.2 h)
  · obtain ⟨t, ht, hans, hframe, hslot⟩ := next_of_writesSlot (exec_add (md := md) ha hb ⟨hr, hc⟩)
    refine ⟨t, ht, hans, hframe, ?_⟩
    rw [hslot]
    exact ⟨⟨ha.symm, rfl, rfl⟩, fun i j _ _ => entry_xorSlots _ _ i j⟩

/-- Settles O46: SUB runs the rule of ADD, and over GF(2) the sum that it writes is the difference. -/
theorem subEqualsAdd : Obligations.SubEqualsAdd := by
  refine ⟨selects_commandOf 0x9, fun md ma mb s => ⟨exec_sub_eq_add md ma mb s, fun ha hb hr hc => ?_⟩⟩
  obtain ⟨t, ht, hans, hframe, hslot⟩ := next_of_writesSlot (exec_add (md := md) ha hb ⟨hr, hc⟩)
  refine ⟨t, (exec_sub_eq_add md ma mb s).trans ht, hans, hframe, ?_⟩
  rw [hslot]
  exact ⟨⟨ha.symm, rfl, rfl⟩, fun r c _ _ => toMatrix_xorSlots _ _ r c⟩

/-- Settles O47: a word XORed with itself is 0; the two other laws are lemmas above. -/
theorem addLawsHold : Obligations.AddLawsHold := by
  refine ⟨exec_add_comm, fun md ma s hv => ?_, exec_sub_eq_add⟩
  obtain ⟨t, ht, ⟨-, hok, -⟩, -, hslot⟩ := next_of_writesSlot (exec_add (md := md) hv hv ⟨rfl, rfl⟩)
  refine ⟨t, ht, hok, ?_⟩
  rw [hslot]
  exact ⟨⟨hv.symm, rfl, rfl⟩, fun k _ => word_xorSlots_self _ k⟩

/-- Settles O48: the checks in their order, and the parities when both pass. -/
theorem mulTakesRowColumnParities : Obligations.MulTakesRowColumnParities := by
  refine ⟨selects_commandOf 0xA, fun md ma mb s _ =>
    ⟨execMul_of_empty, exec_mul_of_not_innerOk, fun ha hb h => ?_⟩⟩
  obtain ⟨t, ht, hans, hframe, hslot⟩ := next_of_writesSlot (exec_mul (md := md) ha hb h)
  refine ⟨t, ht, hans, hframe, ?_⟩
  rw [hslot]
  exact ⟨rfl, rfl, rfl, fun i j hi hj => entry_mulSlots _ _ hi hj⟩

/-- Settles O49: the parities of O48 are the entries of the product. -/
theorem mulIsMatrixProduct : Obligations.MulIsMatrixProduct := by
  intro md ma mb s hs ha hb h
  obtain ⟨t, ht, ⟨-, hok, -⟩, -, hslot⟩ := next_of_writesSlot (exec_mul (md := md) ha hb h)
  refine ⟨t, ht, hok, ?_⟩
  rw [hslot]
  exact toMatrix_mulSlots (slot_canonical hs ha) (slot_canonical hs hb) h

end Sys2Proof.Machine
end

section
/-! PROOF. The command RANK and the units of its engine (44_rank.md). The loop that runs every column counts what the
engine counts: once the pivots reach the smaller dimension, no row or no column is left. The bounds of R207 are read off
that loop, the rank of a permuted identity off R208, and the order of an elimination step is free because each row is
written at its own turn only, from itself and the pivot row. -/

namespace Sys2Proof.Machine

open Sys2Proof.Safety

/-! ### One column of the loop -/

section
variable {W : Vector Word 64} {n lim k c p r : Nat}

theorem rankFrom_of_pivot_none (h : pivot W c p n = none) :
    rankFrom n lim (k + 1) c W p = rankFrom n lim k (c + 1) W p := by
  simp only [rankFrom, h]

theorem rankFrom_of_pivot_some (h : pivot W c p n = some r) :
    rankFrom n lim (k + 1) c W p = if p + 1 = lim then p + 1
      else rankFrom n lim k (c + 1) (eliminate (swapRows W p r) c p n) (p + 1) := by
  simp only [rankFrom, h]

theorem rankFromAll_of_pivot_none (h : pivot W c p n = none) :
    rankFromAll n (k + 1) c W p = rankFromAll n k (c + 1) W p := by
  simp only [rankFromAll, h]

theorem rankFromAll_of_pivot_some (h : pivot W c p n = some r) :
    rankFromAll n (k + 1) c W p = rankFromAll n k (c + 1) (eliminate (swapRows W p r) c p n) (p + 1) := by
  simp only [rankFromAll, h]

end

/-! ### The early exit -/

/-- Where the rows that are left are 0, or no row is left, the loop finds no further pivot. -/
theorem rankFromAll_of_rows_zero {W : Vector Word 64} {n p : Nat} (h : ∀ q, p ≤ q → q < n → rowAt W q = 0)
    (k : Nat) : ∀ c, rankFromAll n k c W p = p := by
  induction k with
  | zero => exact fun _ => rfl
  | succ k ih =>
    intro c
    have hpiv : pivot W c p n = none := (pivot_none W c p n).2 fun q h1 h2 =>
      (congrArg (BitVec.getLsbD · c) (h q h1 h2)).trans BitVec.getLsbD_zero
    rw [rankFromAll_of_pivot_none hpiv, ih]

/-- The two loops agree from every column on that is not behind the pivots: when `p + 1` reaches the smaller dimension,
either no row is left below the pivot or the column was the last. -/
theorem rankFromAll_eq_rankFrom {n cols : Nat} (k : Nat) : ∀ (c : Nat) (W : Vector Word 64) (p : Nat),
    c + k = cols → p ≤ c → rankFromAll n k c W p = rankFrom n (min n cols) k c W p := by
  induction k with
  | zero => exact fun _ _ _ _ _ => rfl
  | succ k ih =>
    intro c W p hck hpc
    cases hpiv : pivot W c p n with
    | none => rw [rankFromAll_of_pivot_none hpiv, rankFrom_of_pivot_none hpiv, ih _ _ _ (by omega) (by omega)]
    | some r =>
      rw [rankFromAll_of_pivot_some hpiv, rankFrom_of_pivot_some hpiv]
      split
      · next hlim =>
        have hleft : n ≤ p + 1 ∨ k = 0 := by omega
        rcases hleft with hrows | rfl
        · exact rankFromAll_of_rows_zero (fun q h1 h2 => by omega) k _
        · rfl
      · exact ih _ _ _ (by omega) (by omega)

/-- Settles O54: the engine's loop starts at column 0 with no pivot. -/
theorem earlyTerminationIsNeutral : Obligations.EarlyTerminationIsNeutral :=
  fun m => rankFromAll_eq_rankFrom m.cols.toNat 0 m.w 0 (Nat.zero_add _) (le_refl 0)

/-! ### The count -/

/-- Each pivot takes a row and a column of its own (R207). -/
theorem rankFromAll_le_min {n : Nat} (k : Nat) : ∀ (c : Nat) (W : Vector Word 64) (p : Nat), p ≤ n →
    rankFromAll n k c W p ≤ min n (p + k) := by
  induction k with
  | zero => exact fun c W p hp => le_min hp (le_refl p)
  | succ k ih =>
    intro c W p hp
    cases hpiv : pivot W c p n with
    | none =>
      have hrest := ih (c + 1) W p hp
      rw [rankFromAll_of_pivot_none hpiv]
      omega
    | some r =>
      obtain ⟨hpr, hrn, -⟩ := pivot_some W c p n r hpiv
      have hrest := ih (c + 1) (eliminate (swapRows W p r) c p n) (p + 1) (by omega)
      rw [rankFromAll_of_pivot_some hpiv]
      omega

theorem rankEng_le_min (m : Slot) : rankEng m ≤ min m.rows.toNat m.cols.toNat := by
  have h := rankFromAll_le_min m.cols.toNat 0 m.w 0 (Nat.zero_le m.rows.toNat)
  rwa [earlyTerminationIsNeutral m, Nat.zero_add] at h

theorem rankEng_of_words_zero {m : Slot} (h : ∀ k, k < 64 → m.word k = 0) : rankEng m = 0 := by
  have hrows : ∀ q, rowAt m.w q = 0 := fun q => (Nat.lt_or_ge q 64).elim (h q) (rowAt_of_ge m.w q)
  rw [← earlyTerminationIsNeutral m, rankFromAll_of_rows_zero fun q _ _ => hrows q]

/-- Settles O51: the count is at most 127, so RESULT holds it unreduced. -/
theorem rankAnswersEngineCount : Obligations.RankAnswersEngineCount := by
  refine ⟨selects_commandOf 0xB, fun ma s => ⟨fun he => ?_, fun hv => ⟨_, exec_rank hv, ?_⟩⟩⟩
  · exact exec_of_empty_operand (.rank ma) s ma (List.mem_singleton_self ma) he
  · rw [slots_eq_slot]
    have hle := rankEng_le_min (s.slot ma)
    have hres : (BitVec.ofNat 64 (rankEng (s.slot ma))).toNat = rankEng (s.slot ma) :=
      (BitVec.toNat_ofNat _ _).trans (Nat.mod_eq_of_lt (by omega))
    rw [hres]
    exact ⟨rfl, by omega, by omega, fun hzero => by rw [rankEng_of_words_zero hzero]; rfl⟩

/-! ### A permuted identity -/

/-- A word with the single bit `j` is the basis vector `j`. -/
theorem rowVec_single (cols j : Nat) (hj : j < cols) (h64 : cols ≤ 64) :
    rowVec cols (1#64 <<< j) = Pi.single ⟨j, hj⟩ 1 := by
  funext x
  have hbit : (1#64 <<< j).getLsbD x = true ↔ x = ⟨j, hj⟩ := by
    simp only [BitVec.getLsbD_shiftLeft, BitVec.getLsbD_one, Bool.and_eq_true, Bool.not_eq_true', decide_eq_true_eq,
      decide_eq_false_iff_not, Fin.ext_iff]
    omega
  rw [rowVec, Pi.single_apply]
  exact if_congr hbit rfl rfl

/-- Distinct single-bit rows are linearly independent. -/
theorem linearIndependent_row_of_single {m : Slot} {n cols : Nat} {f : Nat → Nat} (h64 : cols ≤ 64)
    (hrow : ∀ i, i < n → f i < cols ∧ m.word i = 1#64 <<< f i)
    (hinj : ∀ i j, i < n → j < n → f i = f j → i = j) : LinearIndependent (ZMod 2) (toMatrix m n cols).row := by
  have hbasis : (toMatrix m n cols).row =
      Pi.basisFun (ZMod 2) (Fin cols) ∘ fun i : Fin n => ⟨f i, (hrow i i.isLt).1⟩ := by
    funext i
    obtain ⟨hlt, hword⟩ := hrow i i.isLt
    have hsingle := rowVec_single cols (f i) hlt h64
    rw [← hword] at hsingle
    rw [row_toMatrix, Function.comp_apply, Pi.basisFun_apply]
    exact hsingle
  rw [hbasis]
  refine (Pi.basisFun (ZMod 2) (Fin cols)).linearIndependent.comp _ fun i j h => ?_
  exact Fin.ext (hinj i j i.isLt j.isLt (Fin.mk.inj h))

/-- Settles O52: the rows are independent, and the engine counts the matrix rank (R208). -/
theorem permutedIdentityHasFullRank : Obligations.PermutedIdentityHasFullRank := by
  intro m n f hm hr hc hrow hinj
  have ⟨_, _, _, hcols, _⟩ := hm
  have hind := linearIndependent_row_of_single (m := m) (by omega) hrow hinj
  rw [rankEngineComputesMatrixRank m hm, hr, hc, hind.rank_matrix, Fintype.card_fin]

/-! ### One elimination step -/

/-- The elimination step clears bit `c` of every other row: the pivot row has the bit too. -/
theorem getLsbD_eliminate_pivot_column {W : Vector Word 64} {c p n q : Nat} (hp : (rowAt W p).getLsbD c = true)
    (h64 : q < 64) (hq : q < n) (hqp : q ≠ p) : (rowAt (eliminate W c p n) q).getLsbD c = false := by
  rw [rowAt_eliminate W c p n q h64]
  split
  · next h =>
    obtain ⟨-, -, hbit⟩ := h
    rw [BitVec.getLsbD_xor, hbit, hp, Bool.xor_self]
  · next h => exact Bool.eq_false_iff.2 fun hbit => h ⟨hq, hqp, hbit⟩

theorem rowAt_eliminate_pivot {W : Vector Word 64} {c p n : Nat} (h64 : p < 64) :
    rowAt (eliminate W c p n) p = rowAt W p := by
  rw [rowAt_eliminate W c p n p h64, if_neg fun h => h.2.1 rfl]

theorem rowAt_setIfInBounds (W : Vector Word 64) (q k : Nat) (v : Word) (hk : k < 64) :
    rowAt (W.setIfInBounds q v) k = if k = q then v else rowAt W k := by
  rw [rowAt_of_lt _ k hk, rowAt_of_lt W k hk, Vector.getElem_setIfInBounds]
  exact if_congr eq_comm rfl rfl

section
variable (c p : Nat) (W : Vector Word 64)

/-- Row `q` of the step, written in place at its turn. -/
theorem rowAt_eliminateRow_self {q : Nat} (hq : q < 64) : rowAt (eliminateRow c p W q) q =
    if q ≠ p ∧ (rowAt W q).getLsbD c = true then rowAt W q ^^^ rowAt W p else rowAt W q := by
  rw [eliminateRow]
  split
  · rw [rowAt_setIfInBounds W q q _ hq, if_pos rfl]
  · rfl

theorem rowAt_eliminateRow_of_ne {q k : Nat} (hk : k < 64) (h : k ≠ q) :
    rowAt (eliminateRow c p W q) k = rowAt W k := by
  rw [eliminateRow]
  split
  · rw [rowAt_setIfInBounds W q k _ hk, if_neg h]
  · rfl

theorem rowAt_eliminateRow_pivot (hp : p < 64) (q : Nat) : rowAt (eliminateRow c p W q) p = rowAt W p := by
  by_cases h : p = q
  · subst h
    rw [rowAt_eliminateRow_self c p W hp, if_neg fun hne => hne.1 rfl]
  · exact rowAt_eliminateRow_of_ne c p W hp h

end

/-- Row by row, a step over distinct rows gives every visited row what the step at once gives it: when a row's turn
comes it is still the row of `W`, and so is the pivot row. -/
theorem rowAt_foldl_eliminateRow {c p k : Nat} (hp : p < 64) (hk : k < 64) (order : List Nat) :
    ∀ W : Vector Word 64, order.Nodup → rowAt (order.foldl (eliminateRow c p) W) k =
      if k ∈ order ∧ k ≠ p ∧ (rowAt W k).getLsbD c = true then rowAt W k ^^^ rowAt W p else rowAt W k := by
  induction order with
  | nil => exact fun W _ => (if_neg fun h => List.not_mem_nil h.1).symm
  | cons q rest ih =>
    intro W hnodup
    obtain ⟨hq, hrest⟩ := List.nodup_cons.1 hnodup
    rw [List.foldl_cons, ih _ hrest, rowAt_eliminateRow_pivot c p W hp q]
    by_cases hkq : k = q
    · subst hkq
      rw [if_neg fun h => hq h.1, rowAt_eliminateRow_self c p W hk]
      exact if_congr (and_iff_right List.mem_cons_self).symm rfl rfl
    · rw [rowAt_eliminateRow_of_ne c p W hk hkq]
      exact if_congr (and_congr_left fun _ => (List.mem_cons.trans (or_iff_right hkq)).symm) rfl rfl

/-- Settles O53: a row of the step at once and of the step in any order are the same row of the same matrix. -/
theorem eliminationOrderIsIrrelevant : Obligations.EliminationOrderIsIrrelevant := by
  intro W c p n hn hpn hp
  have h64 : p < 64 := by omega
  refine ⟨fun q hq hqp => getLsbD_eliminate_pivot_column hp (by omega) hq hqp, rowAt_eliminate_pivot h64,
    fun order hnodup hmem => words_ext fun k hk => ?_⟩
  rw [rowAt_foldl_eliminateRow h64 hk order W hnodup, rowAt_eliminate W c p n k hk]
  exact if_congr (and_congr_left fun _ => hmem k) rfl rfl

end Sys2Proof.Machine
end

section
/-! PROOF. The responses of 60_exceptions.md. A command fails with a status other than OK and changes nothing but the
response, or answers OK; that it writes nothing when it fails (R223) and answers a listed status (R221) follow. The
status is that of the first failing check (R224) because each meaning makes its checks in that order. -/

namespace Sys2Proof.Machine

open Sys2Proof.Safety

/-! ### Failure or OK -/

/-- Every command word fails and changes only the response, or answers OK. -/
theorem runCommand_failsWith_or_ok (w : CmdWord) (d : Word) (s : State) :
    FailsWith (runCommand w d s) s ∨
    ∃ slots seq res, runCommand w d s = .next ({ s with slots := slots, seq := seq }.respond .ok res) := by
  rcases runCommand_cases w d s with ⟨-, h⟩ | ⟨i, -, h⟩
  · exact .inl ⟨.illegalCommand, by decide, h⟩
  · rw [h]
    exact exec_cases i s

/-- An answer that fails or is OK writes nothing when its status is not OK. -/
theorem eq_answered_of_status_ne_zero {r : Result} {s t : State}
    (h : FailsWith r s ∨ ∃ slots seq res, r = .next ({ s with slots := slots, seq := seq }.respond .ok res))
    (ht : r = .next t) (hst : t.rspStatus ≠ 0) : t = answered s t.rspStatus 0 := by
  rcases h with ⟨st, -, h⟩ | ⟨slots, seq, res, h⟩
  · cases ht.symm.trans h
    rfl
  · cases ht.symm.trans h
    exact absurd rfl hst

/-- Settles O20: only a failing answer has a status other than OK. -/
theorem failedCommandWritesNothing : Obligations.FailedCommandWritesNothing :=
  ⟨fun i s _ => eq_answered_of_status_ne_zero (exec_cases i s),
    fun w d s _ => eq_answered_of_status_ne_zero (runCommand_failsWith_or_ok w d s)⟩

theorem toNat_code_le (st : Status) : st.code.toNat ≤ 8 := by
  cases st <;> decide

/-- Settles O22: a failure answers a listed status with RESULT 0, and OK is a listed status. -/
theorem responsesAreLegal : Obligations.ResponsesAreLegal := by
  intro w d s
  rcases runCommand_failsWith_or_ok w d s with ⟨st, -, h⟩ | ⟨slots, seq, res, h⟩
  · exact ⟨_, h, rfl, toNat_code_le st, fun _ => rfl⟩
  · exact ⟨_, h, rfl, toNat_code_le .ok, fun hne => absurd rfl hne⟩

/-! ### The order of the checks -/

/-- A response with the status `code` is presented. -/
def AnswersStatus (r : Result) (code : BitVec 4) : Prop := ∃ t, r = .next t ∧ t.phase = .resp ∧ t.rspStatus = code

theorem answersStatus_fail (st : Status) (s : State) : AnswersStatus (fail st s) st.code := ⟨_, rfl, rfl, rfl⟩

theorem answersStatus_succeed (res : Word) (s : State) : AnswersStatus (succeed res s) 0 := ⟨_, rfl, rfl, rfl⟩

/-- A check of the meaning, `P`, against the cause of the same status, `Q`; the later checks are compared after it. -/
theorem answersStatus_check {s : State} {P Q : Prop} [Decidable P] [Decidable Q] {st : Status} {r : Result}
    {code : BitVec 4} (hPQ : P ↔ Q) (h : AnswersStatus r code) :
    AnswersStatus (if P then fail st s else r) (if Q then st.code else code) := by
  by_cases hP : P
  · rw [if_pos hP, if_pos (hPQ.1 hP)]
    exact answersStatus_fail st s
  · rw [if_neg hP, if_neg (mt hPQ.2 hP)]
    exact h

/-- The checks that SETROW and SETCOL share, in the words of R222. -/
theorem setFromSeq_answersStatus (md : SlotNum) (inside : Prop) [Decidable inside] (n : Nat) (q : Bool) (d : Word)
    (m : Slot) (s : State) :
    AnswersStatus (setFromSeq md inside n q d m s)
      (if (s.slot md).valid = false then 7 else if ¬ inside then 2 else if q = false then 5
        else if d.toNat ≠ n then 4 else if ¬ Binary s n then 3 else 0) :=
  answersStatus_check .rfl <| answersStatus_check .rfl <| answersStatus_check .rfl <| answersStatus_check .rfl <|
    answersStatus_check (not_congr (seqOk_iff_binary s n)) (answersStatus_succeed 0 _)

theorem not_dimOk_iff (r c : Int) : ¬ dimOk r c ↔ r < 1 ∨ 64 < r ∨ c < 1 ∨ 64 < c := by
  omega

theorem not_octetOk_iff (k : Int) : ¬ octetOk k ↔ k < 0 ∨ 7 < k := by
  omega

theorem not_valueOk_iff (v : Word) : ¬ valueOk v ↔ 1 < v.toNat := by
  rw [← Nat.not_le, not_iff_not, Nat.le_one_iff_eq_zero_or_eq_one]
  exact (or_congr (BitVec.toNat_inj (y := 0#64)) (BitVec.toNat_inj (y := 1#64))).symm

/-- Every command's meaning makes its checks in the order of R224. The checks of the order that
a command does not make are cleared away first; each that is left is compared with its own in the meaning. -/
theorem exec_answersStatus (i : Instr) (s : State) : AnswersStatus (exec i s) (firstFailing s i) := by
  cases i <;>
    simp only [firstFailing, Instr.isReserved, operandSlots, dimensionBad, indexBad, scalarGiven, lengthBad, valueBad,
      shapeBad, List.any_cons, List.any_nil, Bool.or_false, Bool.or_eq_true, Bool.not_eq_true',
      Bool.false_eq_true, bne_iff_ne, decide_eq_true_eq, if_false, if_true]
  case new md r c => exact answersStatus_check (not_dimOk_iff r c) (answersStatus_succeed 0 _)
  case newdef md => exact answersStatus_succeed 0 _
  case get ma i j =>
    exact answersStatus_check .rfl (answersStatus_check not_and_or (answersStatus_succeed _ s))
  case set md i j v =>
    exact answersStatus_check .rfl (answersStatus_check not_and_or (answersStatus_check (not_valueOk_iff v)
      (answersStatus_succeed 0 _)))
  case getrow ma i => exact answersStatus_check .rfl (answersStatus_check .rfl (answersStatus_succeed _ s))
  case setrow md i q d => exact setFromSeq_answersStatus md (rowOk (s.slot md) i) _ q d _ s
  case getcol ma j => exact answersStatus_check .rfl (answersStatus_check .rfl (answersStatus_succeed _ s))
  case setcol md j q d => exact setFromSeq_answersStatus md (colOk (s.slot md) j) _ q d _ s
  case add md ma mb =>
    exact answersStatus_check .rfl (answersStatus_check not_and_or (answersStatus_succeed 0 _))
  case sub md ma mb =>
    exact answersStatus_check .rfl (answersStatus_check not_and_or (answersStatus_succeed 0 _))
  case mul md ma mb => exact answersStatus_check .rfl (answersStatus_check .rfl (answersStatus_succeed 0 _))
  case rank ma => exact answersStatus_check .rfl (answersStatus_succeed _ s)
  case size ma => exact answersStatus_check .rfl (answersStatus_succeed _ s)
  case seqld k d => exact answersStatus_check (not_octetOk_iff k) (answersStatus_succeed 0 _)
  case reservedE => exact answersStatus_fail .illegalCommand s
  case reservedF => exact answersStatus_fail .illegalCommand s

/-- The commands whose shapes are compared are not those whose values are checked. -/
theorem not_valueBad_and_shapeBad (i : Instr) (s : State) : ¬ (valueBad s i = true ∧ shapeBad s i = true) := by
  rintro ⟨hvalue, hshape⟩
  cases i with
  | add | sub | mul => cases hvalue
  | _ => cases hshape

/-- Settles O21: a word with a reserved bit is answered before it decodes, and any other runs its command. -/
theorem statusIsFirstFailingCheck : Obligations.StatusIsFirstFailingCheck := by
  refine ⟨fun w d s => ?_, not_valueBad_and_shapeBad⟩
  by_cases hclear : w &&& 0xF0000800#32 = 0#32
  · have hdecode := decode_of_clear (mt (reservedBitSet_iff w).1 (not_not.2 hclear)) d
    obtain ⟨t, ht, hphase, hstatus⟩ := exec_answersStatus _ s
    refine ⟨t, (runCommand_of_decode hdecode s).trans ht, hphase, (absurd hclear ·), fun i _ hi => ?_⟩
    cases hdecode.symm.trans hi
    exact hstatus
  · exact ⟨_, reservedBitsAnswerIllegalCommand w d s hclear, rfl, fun _ => rfl, fun _ h => absurd h hclear⟩

end Sys2Proof.Machine
end

section
/-! PROOF. Reset and the held response (70_reset_and_hazards.md). A reset edge has one successor, the reset state, whose
phase fixes the outputs (R250, R251); and each edge of RESP at which the host does not take the response only lets the edge
pass, so a run of them does no more (R260). -/

namespace Sys2Proof.Machine

open Sys2Proof.Safety

/-! ### Reset -/

/-- No response is presented exactly at a reset edge and outside RESP. -/
theorem rspValid_eq_false_iff (s : State) : s.ports.rspValid = false ↔ (s.pins.rst = true ∨ s.phase ≠ .resp) := by
  rw [← Bool.not_eq_true, rspValid_iff, Classical.not_and_iff_not_or_not, Bool.not_eq_false]

/-- A reset edge does the same in every phase and reads no other port (R250). -/
theorem step_of_rst {s : State} (hr : s.pins.rst = true) : step s = .next s.advance.resetEdge :=
  if_pos hr

/-- Settles O14: slots, SEQ and phase are those of the reset state, and IDLE presents no response. -/
theorem resetEdgeEntersResetState : Obligations.ResetEdgeEntersResetState := by
  intro s hr
  have hnotResp : s.advance.resetEdge.phase ≠ .resp := by simp
  exact ⟨s.advance.resetEdge, step_of_rst hr, reset_slot_empty, fun e _ => seqAt_replicate_zero e, rfl,
    (rspValid_eq_false_iff _).2 (.inr hnotResp)⟩

/-- Settles O15: `rst` holds both handshake outputs at 0, and the reset state is IDLE, which is ready once `rst` is 0. -/
theorem resetReleasesToReady : Obligations.ResetReleasesToReady := by
  intro s hr
  refine ⟨(cmdReady_eq_false_iff s).2 (.inl hr), (rspValid_eq_false_iff s).2 (.inl hr), fun t ht hrelease => ?_⟩
  cases ht.symm.trans (step_of_rst hr)
  exact ⟨rfl, (cmdReady_iff _).2 ⟨hrelease, rfl⟩⟩

/-! ### The held response -/

/-- Edges that only pass move the inputs and the count of edges, and nothing of the block. -/
theorem advance_iterate (n : Nat) (s : State) :
    State.advance^[n] s = { s with inputs := s.inputs.drop n, edges := s.edges + n } := by
  induction n generalizing s with
  | zero => rfl
  | succ n ih =>
    rw [Function.iterate_succ_apply, ih]
    simp [State.advance, Nat.add_assoc, Nat.add_comm 1 n]

/-- While the host leaves the response, edges only pass. -/
theorem runEdges_resp_untaken (n : Nat) : ∀ s : State, s.phase = .resp → n ≤ s.inputs.length →
    (∀ p ∈ s.inputs.take n, p.rst = false ∧ p.rspReady = false) → runEdges n s = .next (State.advance^[n] s) := by
  induction n with
  | zero => exact fun s _ _ _ => rfl
  | succ n ih =>
    intro s hp hlen huntaken
    obtain ⟨p, rest, hin⟩ := List.exists_cons_of_length_pos (Nat.zero_lt_of_lt hlen)
    have hpins : s.pins = p := by simp [State.pins, hin]
    have htail : s.advance.inputs = rest := by simp [hin]
    rw [hin, List.take_succ_cons, List.forall_mem_cons, ← hpins, ← htail] at huntaken
    obtain ⟨⟨hr, hready⟩, huntaken⟩ := huntaken
    have hlen' : n ≤ s.advance.inputs.length := by simpa using Nat.le_sub_of_add_le hlen
    rw [runEdges_succ (step_resp_of_untaken hr hp hready), ih s.advance hp hlen' huntaken, Function.iterate_succ_apply]

/-- Settles O12: after edges that only pass the block is still in RESP, where it is not ready. -/
theorem untakenResponseBlocksForever : Obligations.UntakenResponseBlocksForever := by
  intro n s hp hlen huntaken
  have hrun := runEdges_resp_untaken n s hp hlen huntaken
  rw [advance_iterate] at hrun
  have hnotIdle : s.phase ≠ .idle := by simp [hp]
  exact ⟨_, hrun, hp, (cmdReady_eq_false_iff _).2 (.inr hnotIdle), rfl, rfl, rfl, rfl⟩

end Sys2Proof.Machine
end
